-- ==== Sys2Proof/Word.lean ====
section
/-! DEFINITION. The word types of the CORE and their plainest arithmetic (spec/00_scope.md R9, section 5).
Registers are 8 bits, `pc` and `I` 16 bits, opcode fields 4, 8 and 12 bits. -/

namespace Sys2Proof

/-- An 8-bit value: a V register, a timer, a byte of memory (R31, R45, R80). -/
abbrev Byte := BitVec 8

/-- A 16-bit value: `pc`, `I`, a stack entry, an opcode (R34, R39, R41, R120). -/
abbrev Word := BitVec 16

/-- A 4-bit opcode field: a register index `x` or `y`, or the count `n` (R121). -/
abbrev Nibble := BitVec 4

/-- A 12-bit address field `nnn` (R121). -/
abbrev Addr := BitVec 12

/-- `MEM_SIZE` (R9, R80): addresses are 0 to 4095. -/
abbrev memSize : Nat := 4096

/-- `LOAD_ADDR` (R9, R38): where programs are loaded and where `pc` starts. -/
abbrev loadAddr : Nat := 0x200

/-- The most bytes a Load may copy (R102): 4096 - 0x200. -/
abbrev maxProgram : Nat := 3584

/-- `FONT_LO_BASE` (R9): the low-resolution glyphs stand from address 0 on. -/
abbrev fontLoBase : Nat := 0

end Sys2Proof
end

