-- ==== Sys2Proof/Syntax.lean ====
section
/-! DEFINITION. The instructions: one constructor per row of spec/opcode_table.json (spec/30_encoding.md
R124). Operands are the opcode's fields (R121): every value of a field is legal (R134). -/

namespace Sys2Proof

inductive Instr where
  /-- CLS, 00E0 (R290). -/
  | cls
  /-- RET, 00EE (R182). -/
  | ret
  /-- SCD n, 00CN, reserved, `Extended` only (R351). -/
  | scd (n : Nibble)
  /-- SCR, 00FB, reserved, `Extended` only (R352). -/
  | scr
  /-- SCL, 00FC, reserved, `Extended` only (R353). -/
  | scl
  /-- EXIT, 00FD, `Extended` only (R350). -/
  | exit
  /-- LOW, 00FE, `Extended` only (R298). -/
  | low
  /-- HIGH, 00FF, `Extended` only (R299). -/
  | high
  /-- JP nnn, 1NNN (R183). -/
  | jp (nnn : Addr)
  /-- CALL nnn, 2NNN (R184). -/
  | call (nnn : Addr)
  /-- SE Vx, nn, 3XNN (R186). -/
  | seImm (x : Nibble) (nn : Byte)
  /-- SNE Vx, nn, 4XNN (R187). -/
  | sneImm (x : Nibble) (nn : Byte)
  /-- SE Vx, Vy, 5XY0 (R188). -/
  | seReg (x y : Nibble)
  /-- LD Vx, nn, 6XNN (R222). -/
  | ldImm (x : Nibble) (nn : Byte)
  /-- ADD Vx, nn, 7XNN (R223). -/
  | addImm (x : Nibble) (nn : Byte)
  /-- LD Vx, Vy, 8XY0 (R224). -/
  | ldReg (x y : Nibble)
  /-- OR Vx, Vy, 8XY1 (R225). -/
  | or (x y : Nibble)
  /-- AND Vx, Vy, 8XY2 (R226). -/
  | and (x y : Nibble)
  /-- XOR Vx, Vy, 8XY3 (R227). -/
  | xor (x y : Nibble)
  /-- ADD Vx, Vy, 8XY4 (R228). -/
  | addReg (x y : Nibble)
  /-- SUB Vx, Vy, 8XY5 (R229). -/
  | sub (x y : Nibble)
  /-- SHR Vx, Vy, 8XY6 (R230). -/
  | shr (x y : Nibble)
  /-- SUBN Vx, Vy, 8XY7 (R231). -/
  | subn (x y : Nibble)
  /-- SHL Vx, Vy, 8XYE (R232). -/
  | shl (x y : Nibble)
  /-- SNE Vx, Vy, 9XY0 (R189). -/
  | sneReg (x y : Nibble)
  /-- LD I, nnn, ANNN (R260). -/
  | ldI (nnn : Addr)
  /-- JP V0, nnn (`Base`) or JP Vx, nnn (`Extended`), BNNN (R185). -/
  | jpOff (nnn : Addr)
  /-- RND Vx, nn, CXNN (R233). -/
  | rnd (x : Nibble) (nn : Byte)
  /-- DRW Vx, Vy, n, DXYN (R291). -/
  | drw (x y n : Nibble)
  /-- SKP Vx, EX9E (R323). -/
  | skp (x : Nibble)
  /-- SKNP Vx, EXA1 (R324). -/
  | sknp (x : Nibble)
  /-- LD Vx, DT, FX07 (R320). -/
  | ldFromDt (x : Nibble)
  /-- LD Vx, K, FX0A (R325). -/
  | ldK (x : Nibble)
  /-- LD DT, Vx, FX15 (R321). -/
  | ldDt (x : Nibble)
  /-- LD ST, Vx, FX18 (R322). -/
  | ldSt (x : Nibble)
  /-- ADD I, Vx, FX1E (R261). -/
  | addI (x : Nibble)
  /-- LD F, Vx, FX29 (R262). -/
  | ldF (x : Nibble)
  /-- LD HF, Vx, FX30, `Extended` only (R263). -/
  | ldHf (x : Nibble)
  /-- LD B, Vx, FX33 (R264). -/
  | ldB (x : Nibble)
  /-- LD [I], Vx, FX55 (R265). -/
  | ldStore (x : Nibble)
  /-- LD Vx, [I], FX65 (R266). -/
  | ldLoad (x : Nibble)
  deriving DecidableEq, Repr

end Sys2Proof
end

