-- ==== Sys2Proof/Config.lean ====
section
/-! DEFINITION. The configuration of a CORE: what a construction fixes (spec/00_scope.md R9, R10;
spec/93_implementation_defined.md A.3), and the one free value, the random byte (R11, R171).
The default values of the parameters stand in Sys2Proof/Machine/Glyphs.lean. -/

namespace Sys2Proof

/-- The two instruction-set variants (R2). Fixed at construction, never changed. -/
inductive Variant where
  | base
  | extended
  deriving DecidableEq, Repr

/-- `KEYWAIT_PICK` (D11, U16): which key FX0A reports when several have a release edge. -/
inductive KeywaitPick where
  | lowest
  | highest
  deriving DecidableEq, Repr

/-- `EDGE_HISTORY` (D10, U18): what SetKey copies into `prev_key`: key k alone, or the whole array. -/
inductive EdgeHistory where
  | perKey
  | wholeArray
  deriving DecidableEq, Repr

/-- The parameters a model takes (93_implementation_defined.md A.3). No operation changes them (R10, R61). -/
structure Config where
  /-- `VARIANT` (R10). -/
  variant : Variant
  /-- `FONT_LO` (R88, D16): 16 glyphs of 5 bytes. -/
  fontLo : Vector Byte 80
  /-- `FONT_HI` (R89, D16): 10 glyphs of 10 bytes. -/
  fontHi : Vector Byte 100
  /-- `FONT_HI_BASE` (D15). -/
  fontHiBase : Nat
  /-- `HIFONT_IN_BASE` (D15, U6): whether reset copies `FONT_HI` in the `Base` variant too. -/
  hifontInBase : Bool
  /-- `FONT_DIGIT_MASK` (D14, U12). -/
  fontDigitMask : Byte
  /-- `KEYWAIT_PICK` (D11, U16). -/
  keywaitPick : KeywaitPick
  /-- `KEYWAIT_CONSUMES` (D12, U17): whether FX0A uses up the release edge it reports. -/
  keywaitConsumes : Bool
  /-- `EDGE_HISTORY` (D10, U18). -/
  edgeHistory : EdgeHistory
  /-- `CLEAR_ON_SAME_MODE` (D24, U25): whether 00FE and 00FF clear when the mode does not change. -/
  clearOnSameMode : Bool
  deriving DecidableEq, Repr

/-- FREE VALUE (R11, R171, U7; notes/assumptions/2.md): the random byte of the k-th draw. It has no
body, so no proof can see a value of it or relate two draws. Read only by CXNN, at `State.draws`. -/
opaque Config.randomByte : Nat → Byte

end Sys2Proof
end

