-- ==== Sys2Proof/WellFormed.lean ====
section
/-! DEFINITION. Which instructions a CORE of a given variant has (spec/30_encoding.md R130), and which
configurations the address map of spec/20_memory.md R87 allows. Operand fields need no check: every
value of a field inside a legal pattern is legal (R134). -/

namespace Sys2Proof

/-- The instructions that exist in `Extended` only (R130): 00CN, 00FB, 00FC, 00FD, 00FE, 00FF, FX30. -/
def Instr.extendedOnly : Instr → Bool
  | .scd _ | .scr | .scl | .exit | .low | .high | .ldHf _ => true
  | .cls | .ret | .jp _ | .call _ | .seImm _ _ | .sneImm _ _ | .seReg _ _ | .ldImm _ _ | .addImm _ _
  | .ldReg _ _ | .or _ _ | .and _ _ | .xor _ _ | .addReg _ _ | .sub _ _ | .shr _ _ | .subn _ _
  | .shl _ _ | .sneReg _ _ | .ldI _ | .jpOff _ | .rnd _ _ | .drw _ _ _ | .skp _ | .sknp _
  | .ldFromDt _ | .ldK _ | .ldDt _ | .ldSt _ | .addI _ | .ldF _ | .ldB _ | .ldStore _ | .ldLoad _ => false

/-- An instruction is well formed for a variant when that variant has it (R130). -/
def Instr.wellFormed (v : Variant) (i : Instr) : Bool :=
  v = .extended || !i.extendedOnly

/-- The glyph sets lie apart from each other and below the load address (R87: "Addresses below the load
address are reserved for two built-in glyph sets"). -/
def Config.wellFormed (c : Config) : Bool :=
  fontLoBase + 80 ≤ c.fontHiBase && c.fontHiBase + 100 ≤ loadAddr

end Sys2Proof
end

