-- ==== Sys2Proof/Decode.lean ====
section
/-! DEFINITION. The decoder and the encoder (spec/30_encoding.md R120 to R134). Decoding is total on any
word and on any bytes; a word that is no instruction is rejected by name (R124, R131). -/

namespace Sys2Proof

/-- Why a word or a byte string is no instruction. Every one of them is the ILLEGAL of R125; the names
say which check rejected it (R127, R128, R130). Raised by the decoder; step turns each into the fault
FatalDecode, which is the spec's own (R131). -/
inductive Illegal where
  /-- A `0NNN` word that no variant recognises (R127). -/
  | family0
  /-- A 5XYn word with n other than 0 (R128). -/
  | family5
  /-- An 8XYn word with an unlisted sub-code (R128). -/
  | family8
  /-- A 9XYn word with n other than 0 (R128). -/
  | family9
  /-- An EXnn word with an unlisted sub-code (R128). -/
  | familyE
  /-- An FXnn word with an unlisted sub-code (R128). -/
  | familyF
  /-- An `Extended`-only opcode in `Base` (R130). -/
  | extendedOnly
  /-- Fewer than two bytes: no opcode (R120). -/
  | truncated
  deriving DecidableEq, Repr

/-! The fields of an opcode (R121). -/

/-- `F`, op[15:12]. -/
def opF (op : Word) : Nibble := op.extractLsb' 12 4
/-- `x`, op[11:8]. -/
def opX (op : Word) : Nibble := op.extractLsb' 8 4
/-- `y`, op[7:4]. -/
def opY (op : Word) : Nibble := op.extractLsb' 4 4
/-- `n`, op[3:0]. -/
def opN (op : Word) : Nibble := op.extractLsb' 0 4
/-- `nn`, op[7:0]. -/
def opNN (op : Word) : Byte := op.extractLsb' 0 8
/-- `nnn`, op[11:0]. -/
def opNNN (op : Word) : Addr := op.extractLsb' 0 12

/-- An instruction only the `Extended` variant has (R130). -/
def ifExtended (ext : Bool) (i : Instr) : Except Illegal Instr :=
  if ext then .ok i else .error .extendedOnly

/-- Family 0 (R125, R127). -/
def decode0 (ext : Bool) (op : Word) : Except Illegal Instr :=
  if op = 0x00E0#16 then .ok .cls
  else if op = 0x00EE#16 then .ok .ret
  else if op.extractLsb' 4 12 = 0x00C#12 then ifExtended ext (.scd (opN op))
  else if op = 0x00FB#16 then ifExtended ext .scr
  else if op = 0x00FC#16 then ifExtended ext .scl
  else if op = 0x00FD#16 then ifExtended ext .exit
  else if op = 0x00FE#16 then ifExtended ext .low
  else if op = 0x00FF#16 then ifExtended ext .high
  else .error .family0

/-- Family 8, by sub-code (R125, R128). -/
def decode8 (x y n : Nibble) : Except Illegal Instr :=
  if n = 0x0#4 then .ok (.ldReg x y)
  else if n = 0x1#4 then .ok (.or x y)
  else if n = 0x2#4 then .ok (.and x y)
  else if n = 0x3#4 then .ok (.xor x y)
  else if n = 0x4#4 then .ok (.addReg x y)
  else if n = 0x5#4 then .ok (.sub x y)
  else if n = 0x6#4 then .ok (.shr x y)
  else if n = 0x7#4 then .ok (.subn x y)
  else if n = 0xE#4 then .ok (.shl x y)
  else .error .family8

/-- Family E, by sub-code (R125, R128). -/
def decodeE (x : Nibble) (nn : Byte) : Except Illegal Instr :=
  if nn = 0x9E#8 then .ok (.skp x)
  else if nn = 0xA1#8 then .ok (.sknp x)
  else .error .familyE

/-- Family F, by sub-code (R125, R128). -/
def decodeF (ext : Bool) (x : Nibble) (nn : Byte) : Except Illegal Instr :=
  if nn = 0x07#8 then .ok (.ldFromDt x)
  else if nn = 0x0A#8 then .ok (.ldK x)
  else if nn = 0x15#8 then .ok (.ldDt x)
  else if nn = 0x18#8 then .ok (.ldSt x)
  else if nn = 0x1E#8 then .ok (.addI x)
  else if nn = 0x29#8 then .ok (.ldF x)
  else if nn = 0x30#8 then ifExtended ext (.ldHf x)
  else if nn = 0x33#8 then .ok (.ldB x)
  else if nn = 0x55#8 then .ok (.ldStore x)
  else if nn = 0x65#8 then .ok (.ldLoad x)
  else .error .familyF

/-- The decoder of R125. `ext` is the switch `extended_opcodes` of R62. -/
def decode (ext : Bool) (op : Word) : Except Illegal Instr :=
  if opF op = 0x0#4 then decode0 ext op
  else if opF op = 0x1#4 then .ok (.jp (opNNN op))
  else if opF op = 0x2#4 then .ok (.call (opNNN op))
  else if opF op = 0x3#4 then .ok (.seImm (opX op) (opNN op))
  else if opF op = 0x4#4 then .ok (.sneImm (opX op) (opNN op))
  else if opF op = 0x5#4 then
    if opN op = 0x0#4 then .ok (.seReg (opX op) (opY op)) else .error .family5
  else if opF op = 0x6#4 then .ok (.ldImm (opX op) (opNN op))
  else if opF op = 0x7#4 then .ok (.addImm (opX op) (opNN op))
  else if opF op = 0x8#4 then decode8 (opX op) (opY op) (opN op)
  else if opF op = 0x9#4 then
    if opN op = 0x0#4 then .ok (.sneReg (opX op) (opY op)) else .error .family9
  else if opF op = 0xA#4 then .ok (.ldI (opNNN op))
  else if opF op = 0xB#4 then .ok (.jpOff (opNNN op))
  else if opF op = 0xC#4 then .ok (.rnd (opX op) (opNN op))
  else if opF op = 0xD#4 then .ok (.drw (opX op) (opY op) (opN op))
  else if opF op = 0xE#4 then decodeE (opX op) (opNN op)
  else decodeF ext (opX op) (opNN op)

/-- An opcode from its two bytes, high byte first (R84). -/
def opcodeOf (hi lo : Byte) : Word := hi ++ lo

/-- Decoding a byte string: the first instruction and the bytes after it (R84, R120, R136). -/
def decodeBytes (ext : Bool) : List Byte → Except Illegal (Instr × List Byte)
  | hi :: lo :: rest =>
    match decode ext (opcodeOf hi lo) with
    | .ok i => .ok (i, rest)
    | .error e => .error e
  | _ => .error .truncated

/-! The encoder, from the patterns of R124. -/

/-- A pattern F-x-y-n. -/
def packXYN (f x y n : Nibble) : Word := f ++ x ++ y ++ n
/-- A pattern F-x-nn. -/
def packXNN (f x : Nibble) (nn : Byte) : Word := f ++ x ++ nn
/-- A pattern F-nnn. -/
def packNNN (f : Nibble) (nnn : Addr) : Word := f ++ nnn

/-- The word of an instruction (R124). -/
def encode : Instr → Word
  | .cls => 0x00E0#16
  | .ret => 0x00EE#16
  | .scd n => packXYN 0x0#4 0x0#4 0xC#4 n
  | .scr => 0x00FB#16
  | .scl => 0x00FC#16
  | .exit => 0x00FD#16
  | .low => 0x00FE#16
  | .high => 0x00FF#16
  | .jp nnn => packNNN 0x1#4 nnn
  | .call nnn => packNNN 0x2#4 nnn
  | .seImm x nn => packXNN 0x3#4 x nn
  | .sneImm x nn => packXNN 0x4#4 x nn
  | .seReg x y => packXYN 0x5#4 x y 0x0#4
  | .ldImm x nn => packXNN 0x6#4 x nn
  | .addImm x nn => packXNN 0x7#4 x nn
  | .ldReg x y => packXYN 0x8#4 x y 0x0#4
  | .or x y => packXYN 0x8#4 x y 0x1#4
  | .and x y => packXYN 0x8#4 x y 0x2#4
  | .xor x y => packXYN 0x8#4 x y 0x3#4
  | .addReg x y => packXYN 0x8#4 x y 0x4#4
  | .sub x y => packXYN 0x8#4 x y 0x5#4
  | .shr x y => packXYN 0x8#4 x y 0x6#4
  | .subn x y => packXYN 0x8#4 x y 0x7#4
  | .shl x y => packXYN 0x8#4 x y 0xE#4
  | .sneReg x y => packXYN 0x9#4 x y 0x0#4
  | .ldI nnn => packNNN 0xA#4 nnn
  | .jpOff nnn => packNNN 0xB#4 nnn
  | .rnd x nn => packXNN 0xC#4 x nn
  | .drw x y n => packXYN 0xD#4 x y n
  | .skp x => packXNN 0xE#4 x 0x9E#8
  | .sknp x => packXNN 0xE#4 x 0xA1#8
  | .ldFromDt x => packXNN 0xF#4 x 0x07#8
  | .ldK x => packXNN 0xF#4 x 0x0A#8
  | .ldDt x => packXNN 0xF#4 x 0x15#8
  | .ldSt x => packXNN 0xF#4 x 0x18#8
  | .addI x => packXNN 0xF#4 x 0x1E#8
  | .ldF x => packXNN 0xF#4 x 0x29#8
  | .ldHf x => packXNN 0xF#4 x 0x30#8
  | .ldB x => packXNN 0xF#4 x 0x33#8
  | .ldStore x => packXNN 0xF#4 x 0x55#8
  | .ldLoad x => packXNN 0xF#4 x 0x65#8

/-- The two bytes of a word as memory holds them: the high byte at the lower address (R84). -/
def wordBytes (w : Word) : List Byte := [w.extractLsb' 8 8, w.extractLsb' 0 8]

/-- The instruction the `Extended` decoder reads from an opcode-table word of `nbits` bits laid out in
bytes; every opcode is one 16-bit word (R120), so bits above `nbits` are 0. The `Extended` decoder
knows every row of the table (R124). -/
def decodeTableWord (nbits w : Nat) : Option Instr :=
  match decodeBytes true (wordBytes (BitVec.ofNat 16 (w % 2 ^ nbits))) with
  | .ok (i, _) => some i
  | .error _ => none

end Sys2Proof
end

