-- ==== Sys2Proof/Machine/Glyphs.lean ====
section
/-! DEFINITION. The built-in glyphs, the default values of the configuration parameters
(spec/20_memory.md R87 to R90, spec/93_implementation_defined.md A.3), and what an address that nothing
has written reads as. -/

namespace Sys2Proof.Machine

/-- The default `FONT_LO` (R88): digits 0 to 7. -/
def fontLoDigits0to7 : List Byte :=
  [0xF0, 0x90, 0x90, 0x90, 0xF0] ++ [0x20, 0x60, 0x20, 0x20, 0x70] ++
  [0xF0, 0x10, 0xF0, 0x80, 0xF0] ++ [0xF0, 0x10, 0xF0, 0x10, 0xF0] ++
  [0x90, 0x90, 0xF0, 0x10, 0x10] ++ [0xF0, 0x80, 0xF0, 0x10, 0xF0] ++
  [0xF0, 0x80, 0xF0, 0x90, 0xF0] ++ [0xF0, 0x10, 0x20, 0x40, 0x40]

/-- The default `FONT_LO` (R88): digits 8 to F. -/
def fontLoDigits8toF : List Byte :=
  [0xF0, 0x90, 0xF0, 0x90, 0xF0] ++ [0xF0, 0x90, 0xF0, 0x10, 0xF0] ++
  [0xF0, 0x90, 0xF0, 0x90, 0x90] ++ [0xE0, 0x90, 0xE0, 0x90, 0xE0] ++
  [0xF0, 0x80, 0x80, 0x80, 0xF0] ++ [0xE0, 0x90, 0x90, 0x90, 0xE0] ++
  [0xF0, 0x80, 0xF0, 0x80, 0xF0] ++ [0xF0, 0x80, 0xF0, 0x80, 0x80]

/-- The default `FONT_LO` (R88, D16). -/
def defaultFontLo : Vector Byte 80 := ⟨(fontLoDigits0to7 ++ fontLoDigits8toF).toArray, rfl⟩

/-- The default `FONT_HI` (R89): digits 0 to 4. -/
def fontHiDigits0to4 : List Byte :=
  [0x3C, 0x7E, 0xE7, 0xC3, 0xC3, 0xC3, 0xC3, 0xE7, 0x7E, 0x3C] ++
  [0x18, 0x38, 0x58, 0x18, 0x18, 0x18, 0x18, 0x18, 0x18, 0x3C] ++
  [0x3E, 0x7F, 0xC3, 0x06, 0x0C, 0x18, 0x30, 0x60, 0xFF, 0xFF] ++
  [0x3C, 0x7E, 0xC3, 0x03, 0x0E, 0x0E, 0x03, 0xC3, 0x7E, 0x3C] ++
  [0x06, 0x0E, 0x1E, 0x36, 0x66, 0xC6, 0xFF, 0xFF, 0x06, 0x06]

/-- The default `FONT_HI` (R89): digits 5 to 9. -/
def fontHiDigits5to9 : List Byte :=
  [0xFF, 0xFF, 0xC0, 0xC0, 0xFC, 0xFE, 0x03, 0xC3, 0x7E, 0x3C] ++
  [0x3E, 0x7C, 0xE0, 0xC0, 0xFC, 0xFE, 0xC3, 0xC3, 0x7E, 0x3C] ++
  [0xFF, 0xFF, 0x03, 0x06, 0x0C, 0x18, 0x30, 0x60, 0x60, 0x60] ++
  [0x3C, 0x7E, 0xC3, 0xC3, 0x7E, 0x7E, 0xC3, 0xC3, 0x7E, 0x3C] ++
  [0x3C, 0x7E, 0xC3, 0xC3, 0x7F, 0x3F, 0x03, 0x03, 0x3E, 0x7C]

/-- The default `FONT_HI` (R89, D16). -/
def defaultFontHi : Vector Byte 100 := ⟨(fontHiDigits0to4 ++ fontHiDigits5to9).toArray, rfl⟩

/-- The configuration of a variant with every parameter at its default (A.3). -/
def defaultConfig (v : Variant) : Config where
  variant := v
  fontLo := defaultFontLo
  fontHi := defaultFontHi
  fontHiBase := 0x100
  hifontInBase := false
  fontDigitMask := 0x0F#8
  keywaitPick := .lowest
  keywaitConsumes := false
  edgeHistory := .perKey
  clearOnSameMode := true

/-- Whether reset copies `FONT_HI` (R90; D15's `HIFONT_IN_BASE`). -/
def hasFontHi (c : Config) : Bool := c.variant = .extended || c.hifontInBase

/-- The byte an address holds after reset, which is what an unlisted address of memory reads as (R87,
R421): 0x00, then the glyphs; `FONT_HI` is copied last. -/
def resetByte (c : Config) (a : Nat) : Byte :=
  if hasFontHi c && c.fontHiBase ≤ a && a < c.fontHiBase + 100 then c.fontHi.toList.getD (a - c.fontHiBase) 0#8
  else if fontLoBase ≤ a && a < fontLoBase + 80 then c.fontLo.toList.getD (a - fontLoBase) 0#8
  else 0#8

end Sys2Proof.Machine
end

