-- ==== Sys2Proof/Machine/State.lean ====
section
/-! DEFINITION. The state of the CORE (spec/10_state.md R30), the reasons a step or a host operation can
stop, and the state after reset (R78, R421, R422). -/

namespace Sys2Proof.Machine

/-- The resolution mode (R50). -/
inductive Mode where
  | low
  | high
  deriving DecidableEq, Repr

/-- `W`, the framebuffer's width (R50). -/
def Mode.width : Mode → Nat
  | .low => 64
  | .high => 128

/-- `H`, the framebuffer's height (R50). -/
def Mode.height : Mode → Nat
  | .low => 32
  | .high => 64

/-- The run status (R70). -/
inductive Status where
  | running
  | terminated
  | faulted
  deriving DecidableEq, Repr

/-- The causes of the spec's own faults (R378). These are states the machine enters (R372), not ends of a run. -/
inductive Cause where
  /-- Code 1: an ILLEGAL word (R373). -/
  | fatalDecode
  /-- Code 2: 2NNN with `sp` = 16 (R374). -/
  | stackOverflow
  /-- Code 3: 00EE with `sp` = 0 (R375). -/
  | stackUnderflow
  /-- Code 4: an access at an address of 4096 or more (R376). -/
  | memoryBounds
  /-- Code 5: EX9E or EXA1 with V[x] above 15 (R377). -/
  | keyIndex
  deriving DecidableEq, Repr

/-- The cause codes of R378. -/
def Cause.code : Cause → Nat
  | .fatalDecode => 1
  | .stackOverflow => 2
  | .stackUnderflow => 3
  | .memoryBounds => 4
  | .keyIndex => 5

/-- The fault record (R71): cause, opcode (none when the fetch itself faulted), fetch address, info. -/
structure FaultRecord where
  cause : Cause
  opcode : Option Word
  fetchAddr : Word
  info : Option Nat
  deriving DecidableEq, Repr

/-- The output events (R72). -/
inductive Event where
  | startBeep
  | stopBeep
  | diagnostic (opcode fetchAddr : Word)
  deriving DecidableEq, Repr

/-- Memory (R80): the bytes that differ from what reset leaves, by address (`Memory.wf` in Ops.lean). -/
abbrev Memory := List Host.Cell

/-- The state of R30, with three fields that are the model's own: the configuration (R10: fixed, no
operation changes it), the count of random draws made (notes/assumptions/2.md) and the trace of output
events (R72: "a model may keep them as an append-only trace"). -/
structure State where
  /-- V0 to VF (R31). -/
  v : Vector Byte 16
  /-- The program counter (R34). -/
  pc : Word
  /-- The index register I (R39). -/
  i : Word
  /-- The call stack's entries (R41). -/
  stack : Vector Word 16
  /-- The number of stack entries in use, 0 to 16 (R41). -/
  sp : Fin 17
  /-- The delay timer DT (R45). -/
  dt : Byte
  /-- The sound timer ST (R45). -/
  st : Byte
  /-- The memory (R80). -/
  mem : Memory
  /-- The resolution mode (R50). -/
  mode : Mode
  /-- The framebuffer, row-major (R50). -/
  fb : List Bool
  /-- The keys held now (R55). -/
  key : Vector Bool 16
  /-- The keys held at the previous poll (R55). -/
  prevKey : Vector Bool 16
  /-- The run status (R70). -/
  status : Status
  /-- The fault record (R71). -/
  fault : Option FaultRecord
  /-- The model's own: the configuration (R10). -/
  cfg : Config
  /-- The model's own: how many random bytes CXNN has drawn (R171). -/
  draws : Nat
  /-- The model's own: the events emitted so far, oldest first (R72). -/
  events : List Event
  deriving DecidableEq, Repr

/-- Why a step stops for good. There is no such reason: every fault of the spec halts the CORE by
entering a state the spec describes (R372), so a fault is a next state with `status` = `Faulted`, and
nothing in this model answers `Outcome.fault`. Safe: no behaviour is left out by it. -/
inductive Fault where
  deriving DecidableEq, Repr

/-- Why an operation has no transition. -/
inductive Refusal where
  /-- An instruction that has no meaning in this model yet; raised by exec's arm alone. Safe: nothing is
  claimed of such a run. No arm raises it now. -/
  | notModelled (mnemonic : String)
  /-- A Load of more than 3584 bytes; raised by the host operation Load (R102: "it is refused"). Safe:
  the host's call is outside the contract. -/
  | loadTooLong (length : Nat)
  /-- A SetKey of a key above 15; raised by the host operation SetKey (R401: "refused"). Safe: the
  host's call is outside the contract. -/
  | setKeyOutOfRange (k : Nat)
  deriving DecidableEq, Repr

/-- The state right after construction or reset with the configuration `c` (R78, R421, R422). -/
def State.construct (c : Config) : State where
  v := Vector.replicate 16 0#8
  pc := 0x200#16
  i := 0#16
  stack := Vector.replicate 16 0#16
  sp := 0
  dt := 0#8
  st := 0#8
  mem := []
  mode := .low
  fb := List.replicate 2048 false
  key := Vector.replicate 16 false
  prevKey := Vector.replicate 16 false
  status := .running
  fault := none
  cfg := c
  draws := 0
  events := []

/-- The machine right after reset (R421). The variant is a construction argument with no default (R10);
this one is the `Extended` machine with default parameters, which has every row of the opcode table
(DESIGN CHOICE, notes/assumptions/1.md). -/
def State.reset : State := State.construct (defaultConfig .extended)

end Sys2Proof.Machine
end

