-- ==== Sys2Proof/Machine/Quirks.lean ====
section
/-! DEFINITION. The quirk switches (spec/10_state.md R60 to R62), derived from the variant. Instruction
meanings consult these switches, never the variant's identity (R62). -/

namespace Sys2Proof.Machine

/-- The four switches of R60 and the capability switch of R62. -/
structure Quirks where
  resetFlagOnLogicOps : Bool
  memoryIncrementOnBulkTransfer : Bool
  shiftUsesSecondOperand : Bool
  jumpAddsRegisterIndexedByHighNibble : Bool
  extendedOpcodes : Bool
  deriving DecidableEq, Repr

/-- The table of R60, and `extended_opcodes` (R62). -/
def quirksOf : Variant → Quirks
  | .base =>
    { resetFlagOnLogicOps := true, memoryIncrementOnBulkTransfer := true, shiftUsesSecondOperand := true,
      jumpAddsRegisterIndexedByHighNibble := false, extendedOpcodes := false }
  | .extended =>
    { resetFlagOnLogicOps := false, memoryIncrementOnBulkTransfer := false, shiftUsesSecondOperand := false,
      jumpAddsRegisterIndexedByHighNibble := true, extendedOpcodes := true }

/-- `Q` of a state: fixed by its configuration (R60, R61). -/
def State.quirks (s : State) : Quirks := quirksOf s.cfg.variant

end Sys2Proof.Machine
end

