-- ==== Sys2Proof/Machine/Ops.lean ====
section
/-! DEFINITION. The named operations over registers, memory, stack, display and events; the fetch of an
opcode; taking a fault, and leaving a halt (the CORE's only way back, R380). Every instruction meaning is
written over these. -/

namespace Sys2Proof.Machine

/-! ## Outcomes -/

/-- What a step or an operation answers. -/
abbrev Result := Host.Outcome State Fault Refusal

/-- A raised fault on its way to fault entry: its cause and extra information (R372, R378). -/
structure Trap where
  cause : Cause
  info : Option Nat
  deriving DecidableEq, Repr

/-! ## Registers -/

/-- `V[x]` (R31). -/
def State.getV (s : State) (x : Nibble) : Byte := s.v[x.toNat]'x.isLt

/-- `V[x] <- b` (R31). -/
def State.setV (s : State) (x : Nibble) (b : Byte) : State := { s with v := s.v.set x.toNat b x.isLt }

/-- `pc <- w` (R34). -/
def State.setPc (s : State) (w : Word) : State := { s with pc := w }

/-- `I <- w` (R39). -/
def State.setI (s : State) (w : Word) : State := { s with i := w }

/-- `DT <- b` (R45). -/
def State.setDt (s : State) (b : Byte) : State := { s with dt := b }

/-- `ST <- b` (R45). -/
def State.setSt (s : State) (b : Byte) : State := { s with st := b }

/-- `status <- x` (R70). -/
def State.setStatus (s : State) (x : Status) : State := { s with status := x }

/-- `mode <- m; fb <- cells` (R50). -/
def State.setDisplay (s : State) (m : Mode) (cells : List Bool) : State := { s with mode := m, fb := cells }

/-- `prev_key <- keys` (R55). -/
def State.setPrevKey (s : State) (keys : Vector Bool 16) : State := { s with prevKey := keys }

/-- `emit e`: events go to the host in the order emitted (R72). -/
def State.emit (s : State) (e : Event) : State := { s with events := s.events ++ [e] }

/-- The random byte of this step, a draw under no law (R171), and the state in which it is used up. -/
def State.drawByte (s : State) : Byte := Config.randomByte s.draws

/-- The next draw is a fresh one (R171). -/
def State.nextDraw (s : State) : State := { s with draws := s.draws + 1 }

/-- The fetch advance: `pc <- trunc_16(a + 2)` (R162). -/
def State.advance (s : State) : State := s.setPc (s.pc + 2)

/-- A taken skip: `pc <- trunc_16(pc + 2)` (R180). -/
def State.skipIf (s : State) (taken : Bool) : State := if taken then s.setPc (s.pc + 2) else s

/-! ## Memory (R80 to R83) -/

/-- The byte listed at an address, if any. -/
def Memory.lookup (a : Nat) : Memory → Option Byte
  | [] => none
  | (b, w) :: m => if a = b then some w else Memory.lookup a m

/-- List the byte `v` at address `a`, keeping the addresses rising. -/
def Memory.put (a : Nat) (v : Byte) : Memory → Memory
  | [] => [(a, v)]
  | (b, w) :: m => if a < b then (a, v) :: (b, w) :: m else if a = b then (a, v) :: m else (b, w) :: Memory.put a v m

/-- Drop the entry of address `a`. -/
def Memory.drop (a : Nat) : Memory → Memory
  | [] => []
  | (b, w) :: m => if a = b then Memory.drop a m else (b, w) :: Memory.drop a m

/-- The byte at address `a`; an unlisted address reads as reset leaves it (R87, R95). -/
def Memory.read (c : Config) (m : Memory) (a : Nat) : Byte := (Memory.lookup a m).getD (resetByte c a)

/-- Store a byte; one equal to what an unlisted address reads as is not listed. -/
def Memory.write (c : Config) (m : Memory) (a : Nat) (v : Byte) : Memory :=
  if v = resetByte c a then Memory.drop a m else Memory.put a v m

/-- The canonical form: addresses strictly rising and inside the address space (R80), and no entry equal
to what an unlisted address reads as. -/
abbrev Memory.wf (c : Config) (m : Memory) : Prop :=
  m.Pairwise (fun p q => p.1 < q.1) ∧ ∀ p ∈ m, p.1 < memSize ∧ p.2 ≠ resetByte c p.1

/-- The byte a state's memory holds at an address. -/
def State.byteAt (s : State) (a : Nat) : Byte := Memory.read s.cfg s.mem a

/-- The state with one byte of memory stored. -/
def State.storeByte (s : State) (a : Nat) (v : Byte) : State := { s with mem := Memory.write s.cfg s.mem a v }

/-- The state with bytes stored at `a`, `a + 1`, …: `mem[a + j] <- b[j]`. -/
def State.storeBytes (s : State) (a : Nat) : List Byte → State
  | [] => s
  | b :: bs => (s.storeByte a b).storeBytes (a + 1) bs

/-- `MemRead(a, 1)` (R81, R83): `a` is a natural number, never wrapped. -/
def State.memRead (s : State) (a : Nat) : Except Trap Byte :=
  if a < memSize then .ok (s.byteAt a) else .error ⟨.memoryBounds, some a⟩

/-- `MemWrite(a, 1, v)` (R82, R83). -/
def State.memWrite (s : State) (a : Nat) (v : Byte) : Except Trap State :=
  if a < memSize then .ok (s.storeByte a v) else .error ⟨.memoryBounds, some a⟩

/-- Byte reads in order; the first address out of range is the one reported (R92, R376). -/
def State.memReads (s : State) : List Nat → Except Trap (List Byte)
  | [] => .ok []
  | a :: as => do
    let b ← s.memRead a
    let bs ← s.memReads as
    return b :: bs

/-- Byte writes at `a`, `a + 1`, … in order; the first address out of range is the one reported (R92, R376). -/
def State.memWrites (s : State) (a : Nat) : List Byte → Except Trap State
  | [] => .ok s
  | b :: bs => do
    let t ← s.memWrite a b
    t.memWrites (a + 1) bs

/-! ## Fetch (R84, R161) -/

/-- The opcode at `pc`, high byte first; a byte out of range is MemoryBounds at that byte (R161). -/
def State.fetch (s : State) : Except Trap Word := do
  let hi ← s.memRead s.pc.toNat
  let lo ← s.memRead (s.pc.toNat + 1)
  return opcodeOf hi lo

/-! ## The call stack (R41) -/

/-- `push(w)` (R41, R374). -/
def State.push (s : State) (w : Word) : Except Trap State :=
  if h : s.sp.val < 16 then
    .ok { s with stack := s.stack.set s.sp.val w h, sp := ⟨s.sp.val + 1, by omega⟩ }
  else .error ⟨.stackOverflow, none⟩

/-- `pop()`: the entry and the state after it; the entry is not cleared (R41, R43, R375). -/
def State.pop (s : State) : Except Trap (Word × State) :=
  if h : 0 < s.sp.val then
    .ok (s.stack[s.sp.val - 1]'(by omega), { s with sp := ⟨s.sp.val - 1, by omega⟩ })
  else .error ⟨.stackUnderflow, none⟩

/-! ## The framebuffer (R50 to R52) -/

/-- `W*H` unset cells (R52). -/
def blankCells (m : Mode) : List Bool := List.replicate (m.width * m.height) false

/-- `fb[x, y]` (R50): element `y*W + x`. -/
def State.cell (s : State) (x y : Nat) : Bool := s.fb.getD (y * s.mode.width + x) false

/-- Toggle cells one after another, by their index in `fb`; the flag says whether any of them was set
before its toggle (R291, R295). -/
def toggleCells : List Nat → List Bool → List Bool × Bool
  | [], fb => (fb, false)
  | k :: ks, fb =>
    let was := fb.getD k false
    let rest := toggleCells ks (fb.set k (!was))
    (rest.1, was || rest.2)

/-! ## Taking a fault, and the way back (R166, R372, R380) -/

/-- Fault entry (R372): `s` is the state at the start of the step, so every write of the step is
discarded (R166) and `s.pc` is the fetch address; only `status` and `fault` change. `op` is none when the
fetch itself faulted. There is no handler and no vector: the CORE halts. -/
def State.takeFault (s : State) (t : Trap) (op : Option Word) : State :=
  { s with status := .faulted, fault := some ⟨t.cause, op, s.pc, t.info⟩ }

/-- `Reset()` (R420, R421), the only way out of a halt (R380); there is no trap return. It keeps the
configuration (R61) and emits no event; the trace of past events and the count of draws are the model's
own and go on. -/
def State.hostReset (s : State) : State :=
  { State.construct s.cfg with draws := s.draws, events := s.events }

/-! ## Running one instruction (R162, R164 to R166) -/

/-- Run an instruction's rule: `s` is the state at the start of the step, `body` runs on the state after
the fetch advance (R162, R164). If it raises no fault, its writes are the new state (R165); if it does, they
are all discarded and the fault is taken with the raw opcode (R166). -/
def runInstr (i : Instr) (s : State) (body : State → Except Trap State) : Result :=
  match body s.advance with
  | .ok t => .next t
  | .error t => .next (s.takeFault t (some (encode i)))

/-- The instructions of R130 raise FatalDecode where `extended_opcodes` is false. -/
def State.requireExtended (s : State) : Except Trap State :=
  if s.quirks.extendedOpcodes then .ok s else .error ⟨.fatalDecode, none⟩

end Sys2Proof.Machine
end

