-- ==== Sys2Proof/Machine/Flags.lean ====
section
/-! DEFINITION. The flag values and the writing of VF (spec/10_state.md R32, R65; spec/42_alu.md R221).
VF is the only condition code (R220). -/

namespace Sys2Proof.Machine

/-- VF, V[15] (R32). -/
abbrev vf : Nibble := 0xF#4

/-- A flag as VF holds it. -/
def flagByte (b : Bool) : Byte := if b then 1#8 else 0#8

/-- Add-carry: the unsigned sum of the two operands exceeds 255 (R221, R228). -/
def carryOut (a b : Byte) : Bool := a.toNat + b.toNat > 255

/-- NOT borrow: minuend >= subtrahend (R221, R229, R231). -/
def noBorrow (m s : Byte) : Bool := m.toNat ≥ s.toNat

/-- The bit a right shift moves out, the LSB (R230). -/
def shiftOutLsb (src : Byte) : Bool := src.getLsbD 0

/-- The bit a left shift moves out, the MSB (R232). -/
def shiftOutMsb (src : Byte) : Bool := src.getLsbD 7

/-- `VF <- flag`, written last, after the destination (R32, R168). -/
def State.setFlag (s : State) (b : Bool) : State := s.setV vf (flagByte b)

/-- A result and then its flag: when the destination is VF, the flag is what stays (R32, R168). -/
def State.setResultFlag (s : State) (x : Nibble) (r : Byte) (b : Bool) : State := (s.setV x r).setFlag b

/-- The logic instructions' flag: VF <- 0 where `reset_flag_on_logic_ops` is true (R225 to R227). -/
def State.setLogic (s : State) (x : Nibble) (r : Byte) : State :=
  if s.quirks.resetFlagOnLogicOps then (s.setV x r).setV vf 0#8 else s.setV x r

end Sys2Proof.Machine
end

