-- ==== Sys2Proof/Machine/Operands.lean ====
section
/-! DEFINITION. The operand forms: what an instruction reads besides the plain V[x], V[y] and immediate
(spec/30_encoding.md R122, R123; spec/43_index_memory.md R267). -/

namespace Sys2Proof.Machine

/-- The operand a shift works on (R230, R232): V[y] where `shift_uses_second_operand`, else V[x]. -/
def State.shiftSource (s : State) (x y : Nibble) : Byte :=
  if s.quirks.shiftUsesSecondOperand then s.getV y else s.getV x

/-- The register BNNN adds (R123, R185): the one its address's high nibble names, or V[0]. -/
def State.jumpRegister (s : State) (nnn : Addr) : Nibble :=
  if s.quirks.jumpAddsRegisterIndexedByHighNibble then nnn.extractLsb' 8 4 else 0x0#4

/-- The target of BNNN: not reduced mod 0x1000 (R185). -/
def State.jumpOffTarget (s : State) (nnn : Addr) : Word :=
  nnn.setWidth 16 + (s.getV (s.jumpRegister nnn)).setWidth 16

/-- The digit FX29 and FX30 select (R262, R263; D14). -/
def State.fontDigit (s : State) (x : Nibble) : Nat := (s.getV x &&& s.cfg.fontDigitMask).toNat

/-- The low-resolution glyph's address (R262). -/
def State.glyphLo (s : State) (x : Nibble) : Word := BitVec.ofNat 16 (fontLoBase + 5 * s.fontDigit x)

/-- The high-resolution glyph's address (R263). -/
def State.glyphHi (s : State) (x : Nibble) : Word := BitVec.ofNat 16 (s.cfg.fontHiBase + 10 * s.fontDigit x)

/-- The hundreds, tens and ones digits of a byte (R264). -/
def bcdDigits (b : Byte) : List Byte :=
  [BitVec.ofNat 8 (b.toNat / 100), BitVec.ofNat 8 (b.toNat / 10 % 10), BitVec.ofNat 8 (b.toNat % 10)]

/-- V[0] to V[x], ascending (R265). -/
def State.vUpTo (s : State) (x : Nibble) : List Byte :=
  (List.range (x.toNat + 1)).map fun k => s.getV (BitVec.ofNat 4 k)

/-- The addresses I + 0 to I + x, ascending; natural numbers, never wrapped (R39, R266). -/
def State.bulkAddrs (s : State) (x : Nibble) : List Nat :=
  (List.range (x.toNat + 1)).map fun k => s.i.toNat + k

/-- V[k] <- the next byte, from register k on (R266). -/
def State.loadRegs (s : State) (k : Nat) : List Byte → State
  | [] => s
  | b :: bs => (s.setV (BitVec.ofNat 4 k) b).loadRegs (k + 1) bs

/-- The post-modification of I by a bulk transfer (R265, R266, R267): I <- trunc_16(I + x + 1) where
`memory_increment_on_bulk_transfer`. -/
def State.bulkIndex (s : State) (x : Nibble) : State :=
  if s.quirks.memoryIncrementOnBulkTransfer then s.setI (s.i + x.setWidth 16 + 1#16) else s

/-- `key[k]` for the key number a register holds; above 15 it is the fault KeyIndex with that value
(R323, R324, R377). -/
def State.keyHeld (s : State) (k : Byte) : Except Trap Bool :=
  if h : k.toNat < 16 then .ok (s.key[k.toNat]) else .error ⟨.keyIndex, some k.toNat⟩

/-- Key k has a release edge: not held now, held at the previous poll (R325, R55). -/
def State.releaseEdge (s : State) (k : Nibble) : Bool := !s.key[k.toNat]'k.isLt && s.prevKey[k.toNat]'k.isLt

/-- The keys with a release edge, ascending (R325's set E). -/
def State.releaseEdges (s : State) : List Nibble :=
  ((List.range 16).map (BitVec.ofNat 4)).filter s.releaseEdge

/-- The key FX0A reports: the lowest with an edge (R325, D11), or the highest where `KEYWAIT_PICK` says so. -/
def State.waitedKey (s : State) : Option Nibble :=
  match s.cfg.keywaitPick with
  | .lowest => s.releaseEdges.head?
  | .highest => s.releaseEdges.getLast?

end Sys2Proof.Machine
end

