-- ==== Sys2Proof/Machine/Alu.lean ====
section
/-! DEFINITION. Register loads and the ALU: 6XNN, 7XNN, 8XY0 to 8XYE, CXNN (spec/42_alu.md). Unsigned 8-bit
arithmetic, mod 256 (R220); sources are read before any write and the flag is written last (R168). -/

namespace Sys2Proof.Machine

/-- LD Vx, nn (R222): `V[x] <- nn`. -/
def execLdImm (x : Nibble) (nn : Byte) (s : State) : Result :=
  runInstr (.ldImm x nn) s fun s => .ok (s.setV x nn)

/-- ADD Vx, nn (R223): `V[x] <- trunc_8(V[x] + nn)`; VF is not written. -/
def execAddImm (x : Nibble) (nn : Byte) (s : State) : Result :=
  runInstr (.addImm x nn) s fun s => .ok (s.setV x (s.getV x + nn))

/-- LD Vx, Vy (R224): `V[x] <- V[y]`. -/
def execLdReg (x y : Nibble) (s : State) : Result :=
  runInstr (.ldReg x y) s fun s => .ok (s.setV x (s.getV y))

/-- OR Vx, Vy (R225). -/
def execOr (x y : Nibble) (s : State) : Result :=
  runInstr (.or x y) s fun s => .ok (s.setLogic x (s.getV x ||| s.getV y))

/-- AND Vx, Vy (R226). -/
def execAnd (x y : Nibble) (s : State) : Result :=
  runInstr (.and x y) s fun s => .ok (s.setLogic x (s.getV x &&& s.getV y))

/-- XOR Vx, Vy (R227). -/
def execXor (x y : Nibble) (s : State) : Result :=
  runInstr (.xor x y) s fun s => .ok (s.setLogic x (s.getV x ^^^ s.getV y))

/-- ADD Vx, Vy (R228): VF <- carry. -/
def execAddReg (x y : Nibble) (s : State) : Result :=
  runInstr (.addReg x y) s fun s =>
    .ok (s.setResultFlag x (s.getV x + s.getV y) (carryOut (s.getV x) (s.getV y)))

/-- SUB Vx, Vy (R229): V[x] - V[y], VF <- NOT borrow. -/
def execSub (x y : Nibble) (s : State) : Result :=
  runInstr (.sub x y) s fun s =>
    .ok (s.setResultFlag x (s.getV x - s.getV y) (noBorrow (s.getV x) (s.getV y)))

/-- SHR Vx, Vy (R230): VF <- the LSB of the shifted operand. -/
def execShr (x y : Nibble) (s : State) : Result :=
  runInstr (.shr x y) s fun s =>
    .ok (s.setResultFlag x (s.shiftSource x y >>> 1) (shiftOutLsb (s.shiftSource x y)))

/-- SUBN Vx, Vy (R231): V[y] - V[x] into V[x], VF <- NOT borrow. -/
def execSubn (x y : Nibble) (s : State) : Result :=
  runInstr (.subn x y) s fun s =>
    .ok (s.setResultFlag x (s.getV y - s.getV x) (noBorrow (s.getV y) (s.getV x)))

/-- SHL Vx, Vy (R232): VF <- the MSB of the shifted operand. -/
def execShl (x y : Nibble) (s : State) : Result :=
  runInstr (.shl x y) s fun s =>
    .ok (s.setResultFlag x (s.shiftSource x y <<< 1) (shiftOutMsb (s.shiftSource x y)))

/-- RND Vx, nn (R233): `V[x] <- rnd AND nn`; the draw is used up (R171). -/
def execRnd (x : Nibble) (nn : Byte) (s : State) : Result :=
  runInstr (.rnd x nn) s fun s => .ok ((s.setV x (s.drawByte &&& nn)).nextDraw)

end Sys2Proof.Machine
end

