-- ==== Sys2Proof/Machine/ControlFlow.lean ====
section
/-! DEFINITION. Control transfer: 00EE, 1NNN, 2NNN, BNNN, 3XNN, 4XNN, 5XY0, 9XY0 (spec/41_control_flow.md).
In every body `s` is the state after the fetch advance, so `s.pc` is the fetch address + 2 (R162). -/

namespace Sys2Proof.Machine

/-- RET (R182): `pc <- pop()`. -/
def execRet (s : State) : Result :=
  runInstr .ret s fun s => do
    let r ← s.pop
    return r.2.setPc r.1

/-- JP nnn (R183): `pc <- zext_16(nnn)`. -/
def execJp (nnn : Addr) (s : State) : Result :=
  runInstr (.jp nnn) s fun s => .ok (s.setPc (nnn.setWidth 16))

/-- CALL nnn (R184): `push(pc)`, then `pc <- zext_16(nnn)`. -/
def execCall (nnn : Addr) (s : State) : Result :=
  runInstr (.call nnn) s fun s => do
    let t ← s.push s.pc
    return t.setPc (nnn.setWidth 16)

/-- JP V0, nnn (R185): `pc <- trunc_16(nnn + V[r])`. -/
def execJpOff (nnn : Addr) (s : State) : Result :=
  runInstr (.jpOff nnn) s fun s => .ok (s.setPc (s.jumpOffTarget nnn))

/-- SE Vx, nn (R186): skip if V[x] = nn. -/
def execSeImm (x : Nibble) (nn : Byte) (s : State) : Result :=
  runInstr (.seImm x nn) s fun s => .ok (s.skipIf (s.getV x == nn))

/-- SNE Vx, nn (R187): skip if V[x] != nn. -/
def execSneImm (x : Nibble) (nn : Byte) (s : State) : Result :=
  runInstr (.sneImm x nn) s fun s => .ok (s.skipIf (s.getV x != nn))

/-- SE Vx, Vy (R188): skip if V[x] = V[y]. -/
def execSeReg (x y : Nibble) (s : State) : Result :=
  runInstr (.seReg x y) s fun s => .ok (s.skipIf (s.getV x == s.getV y))

/-- SNE Vx, Vy (R189): skip if V[x] != V[y]. -/
def execSneReg (x y : Nibble) (s : State) : Result :=
  runInstr (.sneReg x y) s fun s => .ok (s.skipIf (s.getV x != s.getV y))

end Sys2Proof.Machine
end

