-- ==== Sys2Proof/Machine/Display.lean ====
section
/-! DEFINITION. The display instructions: 00E0, DXYN, 00FE, 00FF (spec/44_display.md), and the sprite they
draw. -/

namespace Sys2Proof.Machine

/-! ## The sprite of DXYN -/

/-- A 16x16 sprite: only in high resolution, when the low nibble is 0 (R292). -/
def spriteWide (s : State) (n : Nibble) : Bool := s.mode = .high && n = 0#4

/-- The sprite's rows (R292). -/
def spriteHeight (s : State) (n : Nibble) : Nat := if spriteWide s n then 16 else n.toNat

/-- The sprite's columns (R292). -/
def spriteCols (s : State) (n : Nibble) : Nat := if spriteWide s n then 16 else 8

/-- `x0`: V[x] mod W (R293). -/
def spriteX (s : State) (x : Nibble) : Nat := (s.getV x).toNat % s.mode.width

/-- `y0`: V[y] mod H (R293). -/
def spriteY (s : State) (y : Nibble) : Nat := (s.getV y).toNat % s.mode.height

/-- The rows that are not clipped, ascending (R294). -/
def visibleRows (s : State) (y n : Nibble) : List Nat :=
  (List.range (spriteHeight s n)).filter fun r => spriteY s y + r < s.mode.height

/-- The bits of row r: one byte at I + r, or the two bytes at I + 2r (left half) and I + 2r + 1 (R297). -/
def spriteRow (s : State) (n : Nibble) (r : Nat) : Except Trap Nat :=
  if spriteWide s n then do
    let hi ← s.memRead (s.i.toNat + 2 * r)
    let lo ← s.memRead (s.i.toNat + 2 * r + 1)
    return hi.toNat * 256 + lo.toNat
  else do
    let b ← s.memRead (s.i.toNat + r)
    return b.toNat

/-- The rows with their bits, read in order; clipped rows are not in the list and are not read (R294). -/
def spriteRows (s : State) (n : Nibble) : List Nat → Except Trap (List (Nat × Nat))
  | [] => .ok []
  | r :: rs => do
    let bits ← spriteRow s n r
    let rest ← spriteRows s n rs
    return (r, bits) :: rest

/-- The index in `fb` of each cell that a row's set bits fall on: the MSB is the leftmost column, and a
clipped column is left out (R294, R295, R297). -/
def rowCells (s : State) (x y n : Nibble) (row : Nat × Nat) : List Nat :=
  ((List.range (spriteCols s n)).filter fun c =>
    spriteX s x + c < s.mode.width && row.2.testBit (spriteCols s n - 1 - c)).map fun c =>
      (spriteY s y + row.1) * s.mode.width + (spriteX s x + c)

/-- The cells the whole sprite toggles, row by row (R291). -/
def spriteCells (s : State) (x y n : Nibble) (rows : List (Nat × Nat)) : List Nat :=
  rows.flatMap (rowCells s x y n)

/-! ## The instructions -/

/-- CLS (R290): every cell unset, the size as the current mode's. -/
def execCls (s : State) : Result :=
  runInstr .cls s fun s => .ok (s.setDisplay s.mode (blankCells s.mode))

/-- DRW Vx, Vy, n (R291). Every sprite byte is read before a cell is toggled: memory and `fb` are apart,
and a fault discards the toggles anyway (R166). VF is written last (R296). -/
def execDrw (x y n : Nibble) (s : State) : Result :=
  runInstr (.drw x y n) s fun s => do
    let rows ← spriteRows s n (visibleRows s y n)
    let drawn := toggleCells (spriteCells s x y n rows) s.fb
    return (s.setDisplay s.mode drawn.1).setFlag drawn.2

/-- Select a resolution (R52, R298, R299): the buffer is replaced by a cleared one, also when the mode is
unchanged unless `CLEAR_ON_SAME_MODE` is false (D24). -/
def State.selectMode (s : State) (m : Mode) : State :=
  if s.mode = m && !s.cfg.clearOnSameMode then s else s.setDisplay m (blankCells m)

/-- LOW (R298), `Extended` only. -/
def execLow (s : State) : Result :=
  runInstr .low s fun s => do
    let s ← s.requireExtended
    return s.selectMode .low

/-- HIGH (R299), `Extended` only. -/
def execHigh (s : State) : Result :=
  runInstr .high s fun s => do
    let s ← s.requireExtended
    return s.selectMode .high

end Sys2Proof.Machine
end

