-- ==== Sys2Proof/Machine/IndexMemory.lean ====
section
/-! DEFINITION. The index register and memory transfer: ANNN, FX1E, FX29, FX30, FX33, FX55, FX65
(spec/43_index_memory.md). An access at 4096 or above faults with no partial effect (R83, R166). -/

namespace Sys2Proof.Machine

/-- LD I, nnn (R260): `I <- zext_16(nnn)`. -/
def execLdI (nnn : Addr) (s : State) : Result :=
  runInstr (.ldI nnn) s fun s => .ok (s.setI (nnn.setWidth 16))

/-- ADD I, Vx (R261): `I <- trunc_16(I + V[x])`; VF is not written. -/
def execAddI (x : Nibble) (s : State) : Result :=
  runInstr (.addI x) s fun s => .ok (s.setI (s.i + (s.getV x).setWidth 16))

/-- LD F, Vx (R262). -/
def execLdF (x : Nibble) (s : State) : Result :=
  runInstr (.ldF x) s fun s => .ok (s.setI (s.glyphLo x))

/-- LD HF, Vx (R263), `Extended` only. -/
def execLdHf (x : Nibble) (s : State) : Result :=
  runInstr (.ldHf x) s fun s => do
    let s ← s.requireExtended
    return s.setI (s.glyphHi x)

/-- LD B, Vx (R264): the decimal digits of V[x] at I, I + 1, I + 2; I is not changed. -/
def execLdB (x : Nibble) (s : State) : Result :=
  runInstr (.ldB x) s fun s => s.memWrites s.i.toNat (bcdDigits (s.getV x))

/-- LD [I], Vx (R265): V[0] to V[x] to memory from I on, then the post-modification of I. -/
def execLdStore (x : Nibble) (s : State) : Result :=
  runInstr (.ldStore x) s fun s => do
    let t ← s.memWrites s.i.toNat (s.vUpTo x)
    return t.bulkIndex x

/-- LD Vx, [I] (R266): V[0] to V[x] from memory at I on, then the post-modification of I. -/
def execLdLoad (x : Nibble) (s : State) : Result :=
  runInstr (.ldLoad x) s fun s => do
    let bs ← s.memReads (s.bulkAddrs x)
    return (s.loadRegs 0 bs).bulkIndex x

end Sys2Proof.Machine
end

