-- ==== Sys2Proof/Machine/System.lean ====
section
/-! DEFINITION. The system instructions: 00FD and the reserved no-ops 00CN, 00FB, 00FC
(spec/46_system.md). All are `Extended` only. -/

namespace Sys2Proof.Machine

/-- EXIT (R350): `status <- Terminated`, with `pc` left at the fetch address + 2. -/
def execExit (s : State) : Result :=
  runInstr .exit s fun s => do
    let s ← s.requireExtended
    return s.setStatus .terminated

/-- The reserved no-op (R354): one Diagnostic with the raw opcode and the fetch address, nothing else. -/
def State.reservedNoOp (s : State) (i : Instr) (fetchAddr : Word) : Except Trap State := do
  let s ← s.requireExtended
  return s.emit (.diagnostic (encode i) fetchAddr)

/-- SCD n (R351): reserved; n is ignored. -/
def execScd (n : Nibble) (s : State) : Result :=
  runInstr (.scd n) s fun t => t.reservedNoOp (.scd n) s.pc

/-- SCR (R352): reserved. -/
def execScr (s : State) : Result :=
  runInstr .scr s fun t => t.reservedNoOp .scr s.pc

/-- SCL (R353): reserved. -/
def execScl (s : State) : Result :=
  runInstr .scl s fun t => t.reservedNoOp .scl s.pc

end Sys2Proof.Machine
end

