-- ==== Sys2Proof/Machine/TimersKeys.lean ====
section
/-! DEFINITION. The timer and key instructions: FX07, FX15, FX18, EX9E, EXA1, FX0A
(spec/45_timers_keys.md). -/

namespace Sys2Proof.Machine

/-- LD Vx, DT (R320): `V[x] <- DT`. -/
def execLdFromDt (x : Nibble) (s : State) : Result :=
  runInstr (.ldFromDt x) s fun s => .ok (s.setV x s.dt)

/-- LD DT, Vx (R321): `DT <- V[x]`. -/
def execLdDt (x : Nibble) (s : State) : Result :=
  runInstr (.ldDt x) s fun s => .ok (s.setDt (s.getV x))

/-- LD ST, Vx (R322): `ST <- V[x]`; no audio event. -/
def execLdSt (x : Nibble) (s : State) : Result :=
  runInstr (.ldSt x) s fun s => .ok (s.setSt (s.getV x))

/-- SKP Vx (R323): skip if key V[x] is held. -/
def execSkp (x : Nibble) (s : State) : Result :=
  runInstr (.skp x) s fun s => do
    let held ← s.keyHeld (s.getV x)
    return s.skipIf held

/-- SKNP Vx (R324): skip if key V[x] is not held. -/
def execSknp (x : Nibble) (s : State) : Result :=
  runInstr (.sknp x) s fun s => do
    let held ← s.keyHeld (s.getV x)
    return s.skipIf (!held)

/-- Using up the edge of key k, only where `KEYWAIT_CONSUMES` says so (D12): `prev_key[k] <- key[k]`. -/
def State.consumeEdge (s : State) (k : Nibble) : State :=
  if s.cfg.keywaitConsumes then s.setPrevKey (s.prevKey.set k.toNat (s.key[k.toNat]'k.isLt) k.isLt) else s

/-- LD Vx, K (R325): with a release edge, V[x] <- the key; without one, `pc` goes back to the fetch address. -/
def execLdK (x : Nibble) (s : State) : Result :=
  runInstr (.ldK x) s fun s =>
    match s.waitedKey with
    | some k => .ok ((s.setV x (k.setWidth 8)).consumeEdge k)
    | none => .ok (s.setPc (s.pc - 2))

end Sys2Proof.Machine
end

