-- ==== Sys2Proof/Machine/Step.lean ====
section
/-! DEFINITION. The step (spec/40_step_cycle.md R160 to R172) and the host's placing of one instruction. -/

namespace Sys2Proof.Machine

/-- `Step(rnd)` (R172): nothing while halted (R160); fetch (R161); decode for the variant (R163); execute
with the fetch advance and the commit in `runInstr` (R162, R164 to R166). The random byte is the free
value that CXNN draws (R171, notes/assumptions/2.md). -/
def step (s : State) : Host.Outcome State Fault Refusal :=
  match s.status with
  | .terminated => .next s
  | .faulted => .next s
  | .running =>
    match s.fetch with
    | .error t => .next (s.takeFault t none)
    | .ok op =>
      match decode s.quirks.extendedOpcodes op with
      | .error _ => .next (s.takeFault ⟨.fatalDecode, none⟩ (some op))
      | .ok i => exec i s

/-- `s` with the instruction of `nbits` bits `w` stored where `step` fetches its next one: its two bytes
at `pc` and `pc` + 1, the high byte first (R84, R161), as a Load would place them (R101). A `pc` from which
no fetch is possible (R161) has no place to store them. -/
def State.withFetchWord (s : State) (nbits w : Nat) : State :=
  let word : Word := BitVec.ofNat 16 (w % 2 ^ nbits)
  if s.pc.toNat + 1 < memSize then
    (s.storeByte s.pc.toNat (word.extractLsb' 8 8)).storeByte (s.pc.toNat + 1) (word.extractLsb' 0 8)
  else s

end Sys2Proof.Machine
end

