-- ==== Sys2Proof/Machine/HostOps.lean ====
section
/-! DEFINITION. The six host operations (spec/20_memory.md R100 to R102; spec/60_exceptions.md R390 to R402;
spec/70_reset_and_hazards.md R420) and runs of them in any order (R441). Each is one atomic transition. -/

namespace Sys2Proof.Machine

/-- `Load(bytes)` (R101, R102): from 0x200 on, in any status, nothing else changed; a program that does
not fit is refused. -/
def hostLoad (bytes : List Byte) (s : State) : Result :=
  if bytes.length ≤ maxProgram then .next (s.storeBytes loadAddr bytes) else .refused (.loadTooLong bytes.length)

/-- The delay timer's part of a tick: down by at most 1, never below 0 (R391). -/
def State.tickDelay (s : State) : State := if s.dt = 0#8 then s else s.setDt (s.dt - 1)

/-- The sound timer's part of a tick: StartBeep and down by 1 while ST is not 0 (R392). -/
def State.tickSound (s : State) : State :=
  if s.st = 0#8 then s else (s.emit .startBeep).setSt (s.st - 1)

/-- StopBeep in every tick that ends with ST = 0 (R392). -/
def State.tickStop (s : State) : State := if s.st = 0#8 then s.emit .stopBeep else s

/-- `Tick()` (R390), in any status. -/
def hostTick (s : State) : Result := .next (s.tickDelay.tickSound.tickStop)

/-- The edge history a SetKey of key k leaves (R400; D10's `EDGE_HISTORY`). -/
def State.edgeHistory (s : State) (k : Fin 16) : Vector Bool 16 :=
  match s.cfg.edgeHistory with
  | .perKey => s.prevKey.set k.val (s.key[k.val]'k.isLt) k.isLt
  | .wholeArray => s.key

/-- `SetKey(k, pressed)` for a key 0 to 15 (R400). -/
def State.pressKey (s : State) (k : Fin 16) (pressed : Bool) : State :=
  { s with prevKey := s.edgeHistory k, key := s.key.set k.val pressed k.isLt }

/-- `SetKey(k, pressed)` (R400, R401), in any status; a key above 15 is refused. -/
def hostSetKey (k : Nat) (pressed : Bool) (s : State) : Result :=
  if h : k < 16 then .next (s.pressKey ⟨k, h⟩ pressed) else .refused (.setKeyOutOfRange k)

/-- What ReadDisplay returns (R402). -/
structure Snapshot where
  cells : List Bool
  width : Nat
  height : Nat
  mode : Mode
  deriving DecidableEq, Repr

/-- The output of `ReadDisplay()` (R402). -/
def readDisplay (s : State) : Snapshot := ⟨s.fb, s.mode.width, s.mode.height, s.mode⟩

/-- The host's operations (R100). Step's random byte is the free value CXNN draws. -/
inductive HostOp where
  | load (bytes : List Byte)
  | step
  | tick
  | setKey (k : Nat) (pressed : Bool)
  | readDisplay
  | reset
  deriving DecidableEq, Repr

/-- One host operation (R100). ReadDisplay changes no state (R402); its output is `readDisplay`. -/
def hostStep (op : HostOp) (s : State) : Result :=
  match op with
  | .load bytes => hostLoad bytes s
  | .step => step s
  | .tick => hostTick s
  | .setKey k pressed => hostSetKey k pressed s
  | .readDisplay => .next s
  | .reset => .next s.hostReset

/-- A sequence of host operations, in any order and mixture (R424, R441). -/
def hostRun : List HostOp → State → Result
  | [], s => .next s
  | op :: ops, s =>
    match hostStep op s with
    | .next t => hostRun ops t
    | .fault r => .fault r
    | .refused r => .refused r

end Sys2Proof.Machine
end

