-- ==== Sys2Proof/Safety.lean ====
section
/-! DEFINITION. The terms that claims about the CORE are stated in: the parts of the state and what it means
that an operation changes only some of them; the two ways an instruction ends (completing, or taking a
fault, R372); the invariants of the machine; what a sprite covers (R291); halting. -/

namespace Sys2Proof.Machine

/-! ## Frames -/

/-- The parts of a state, down to single registers, keys and bytes of memory. -/
inductive StatePart where
  | reg (x : Nibble)
  | pc
  | index
  | stackEntry (j : Fin 16)
  | sp
  | delayTimer
  | soundTimer
  | memByte (a : Nat)
  | mode
  | framebuffer
  | key (k : Fin 16)
  | prevKey (k : Fin 16)
  | status
  | faultRecord
  | config
  | draws
  | events
  deriving DecidableEq, Repr

/-- The part is the same in both states; memory is compared by reading the byte. -/
def StatePart.same (s t : State) : StatePart → Prop
  | .reg x => t.getV x = s.getV x
  | .pc => t.pc = s.pc
  | .index => t.i = s.i
  | .stackEntry j => t.stack[j] = s.stack[j]
  | .sp => t.sp = s.sp
  | .delayTimer => t.dt = s.dt
  | .soundTimer => t.st = s.st
  | .memByte a => t.byteAt a = s.byteAt a
  | .mode => t.mode = s.mode
  | .framebuffer => t.fb = s.fb
  | .key k => t.key[k] = s.key[k]
  | .prevKey k => t.prevKey[k] = s.prevKey[k]
  | .status => t.status = s.status
  | .faultRecord => t.fault = s.fault
  | .config => t.cfg = s.cfg
  | .draws => t.draws = s.draws
  | .events => t.events = s.events

/-- From `s` to `t` every part outside `ps` is unchanged. -/
def OnlyChanges (s t : State) (ps : List StatePart) : Prop := ∀ p, p ∉ ps → p.same s t

/-- The bytes of memory at `a`, …, `a + n - 1`. -/
def memSpan (a n : Nat) : List StatePart := (List.range n).map fun k => .memByte (a + k)

/-- The registers V0 to Vx. -/
def regsUpTo (x : Nibble) : List StatePart := (List.range (x.toNat + 1)).map fun k => .reg (BitVec.ofNat 4 k)

/-! ## How an instruction ends -/

/-- The instruction answers a next state that differs from `s` only in `ps` and of which `P` holds. Where
`ps` lists neither `status` nor `faultRecord`, the instruction takes no fault and does not halt. -/
def Completes (i : Instr) (s : State) (ps : List StatePart) (P : State → Prop) : Prop :=
  ∃ t, exec i s = .next t ∧ OnlyChanges s t ps ∧ P t

/-- The state `t` is `s` after fault entry (R166, R372): only `status` and `fault` differ. -/
def FaultEntry (s t : State) (cause : Cause) (opcode : Option Word) (info : Option Nat) : Prop :=
  OnlyChanges s t [.status, .faultRecord] ∧ t.status = .faulted ∧ t.fault = some ⟨cause, opcode, s.pc, info⟩

/-- The instruction takes the fault `cause` with `info`: fault entry with its opcode and fetch address. -/
def TakesFault (i : Instr) (s : State) (cause : Cause) (info : Option Nat) : Prop :=
  ∃ t, exec i s = .next t ∧ FaultEntry s t cause (some (encode i)) info

/-- The first address at or above 4096 when bytes are accessed upwards from `a` (R376). -/
def firstOutOfRange (a : Nat) : Nat := max a memSize

/-- The word at `pc`: the byte at the lower address is the high byte (R84). -/
def State.wordAtPc (s : State) : Word := BitVec.ofNat 16 ((s.byteAt s.pc.toNat).toNat * 256 + (s.byteAt (s.pc.toNat + 1)).toNat)

/-- Both bytes at `pc` are inside memory (R161). -/
def State.fetchInRange (s : State) : Prop := s.pc.toNat + 1 < memSize

/-! ## Invariants -/

/-- The framebuffer has exactly W*H cells (R50). -/
def State.DisplayFits (s : State) : Prop := s.fb.length = s.mode.width * s.mode.height

/-- What holds of every state of the machine. -/
structure State.Inv (s : State) : Prop where
  /-- Memory keeps its canonical form, inside the address space (R80). -/
  memory : Memory.wf s.cfg s.mem
  /-- The framebuffer has exactly W*H cells (R50). -/
  display : s.DisplayFits
  /-- In `Base`, `mode` is always `Low` (R51). -/
  baseIsLow : s.cfg.variant = .base → s.mode = .low
  /-- There is a fault record exactly while `status` is `Faulted` (R71). -/
  record : s.fault.isSome = true ↔ s.status = .faulted
  /-- `pc` is at most 0x10FE (R37). -/
  pcBound : s.pc.toNat ≤ 0x10FE
  /-- Every return address is at most 0x1000: a fetch address that can be executed is at most 4094. -/
  stackBound : ∀ j : Fin 16, s.stack[j].toNat ≤ 0x1000

/-! ## Sprites (R291 to R297), in the coordinates of the framebuffer -/

/-- The bits of row r of the sprite at I (R297). -/
def spriteRowBits (s : State) (n : Nibble) (r : Nat) : Nat :=
  if s.mode = .high ∧ n = 0#4 then
    (s.byteAt (s.i.toNat + 2 * r)).toNat * 256 + (s.byteAt (s.i.toNat + 2 * r + 1)).toNat
  else (s.byteAt (s.i.toNat + r)).toNat

/-- Whether DXYN toggles the cell at column px, row py: the cell lies in the sprite's rectangle, whose
origin wraps (R293), and the sprite's bit there is set, bit 7 leftmost (R295, R297). -/
def spriteCovers (s : State) (x y n : Nibble) (px py : Nat) : Bool :=
  let x0 := (s.getV x).toNat % s.mode.width
  let y0 := (s.getV y).toNat % s.mode.height
  let wide : Bool := s.mode = .high ∧ n = 0#4
  let rows := if wide then 16 else n.toNat
  let cols := if wide then 16 else 8
  x0 ≤ px && px < x0 + cols && (y0 ≤ py && py < y0 + rows) &&
    (spriteRowBits s n (py - y0)).testBit (cols - 1 - (px - x0))

/-- How many bytes DXYN reads: one a row, two in a 16x16 sprite, of the rows that are not clipped (R294, R297). -/
def spriteBytes (s : State) (y n : Nibble) : Nat :=
  let y0 := (s.getV y).toNat % s.mode.height
  if s.mode = .high ∧ n = 0#4 then 2 * min 16 (s.mode.height - y0) else min n.toNat (s.mode.height - y0)

/-- Every byte that DXYN reads is inside memory. -/
def SpriteInRange (s : State) (y n : Nibble) : Prop :=
  spriteBytes s y n = 0 ∨ s.i.toNat + spriteBytes s y n ≤ memSize

/-! ## Safe runs -/

/-- The machine runs no step (R160). -/
def State.Halted (s : State) : Prop := s.status ≠ .running

/-- A run of host operations is safe when it has a transition throughout and no fault is on record at its end. -/
def SafeRun (ops : List HostOp) (s : State) : Prop := ∃ t, hostRun ops s = .next t ∧ t.status ≠ .faulted

end Sys2Proof.Machine
end

