-- ==== Sys2Proof/Certificates/Slice0/Obligations.lean ====
section
/-! DEFINITION. The statements for the provers. Each docstring says which rule of spec/ it formalises.
`Completes i s ps P`: exec answers a next state that differs from s in the parts ps alone and of which P holds.
`TakesFault i s c info`: exec answers the state of fault entry (R372): s but for `status` and `fault`. -/

open Sys2Proof Sys2Proof.Machine

/-! ## Encoding (30_encoding.md) -/

/-- Decode of encode is the instruction, for every well-formed instruction of every variant (R121, R124, R134). -/
def Obligations.DecodeOfEncode : Prop :=
  ∀ (v : Variant) (i : Instr), i.wellFormed v = true →
    decode (quirksOf v).extendedOpcodes (encode i) = .ok i

/-- A word that decodes is the word of the instruction it decodes to, which the variant has (R124). -/
def Obligations.EncodeOfDecode : Prop :=
  ∀ (v : Variant) (w : Word) (i : Instr), decode (quirksOf v).extendedOpcodes w = .ok i →
    encode i = w ∧ i.wellFormed v = true

/-- Words written out from the patterns of R124, one for each row, decode to the instructions they stand for. -/
def Obligations.WrittenWordsDecode : Prop :=
  [0x00E0#16, 0x00EE#16, 0x00C5#16, 0x00FB#16, 0x00FC#16, 0x00FD#16, 0x00FE#16, 0x00FF#16, 0x1234#16,
    0x2ABC#16, 0x3A12#16].map (decode true) =
    [.ok .cls, .ok .ret, .ok (.scd 5#4), .ok .scr, .ok .scl, .ok .exit, .ok .low, .ok .high, .ok (.jp 0x234#12),
      .ok (.call 0xABC#12), .ok (.seImm 0xA#4 0x12#8)] ∧
  [0x4B34#16, 0x5AB0#16, 0x6005#16, 0x71FF#16, 0x8120#16, 0x8121#16, 0x8122#16, 0x8123#16, 0x8014#16, 0x8125#16,
    0x8126#16, 0x8127#16, 0x812E#16, 0x9AB0#16].map (decode true) =
    [.ok (.sneImm 0xB#4 0x34#8), .ok (.seReg 0xA#4 0xB#4), .ok (.ldImm 0#4 5#8), .ok (.addImm 1#4 0xFF#8),
      .ok (.ldReg 1#4 2#4), .ok (.or 1#4 2#4), .ok (.and 1#4 2#4), .ok (.xor 1#4 2#4), .ok (.addReg 0#4 1#4),
      .ok (.sub 1#4 2#4), .ok (.shr 1#4 2#4), .ok (.subn 1#4 2#4), .ok (.shl 1#4 2#4), .ok (.sneReg 0xA#4 0xB#4)] ∧
  [0xA300#16, 0xB210#16, 0xC30F#16, 0xD015#16, 0xE29E#16, 0xE2A1#16, 0xF307#16, 0xF30A#16, 0xF015#16, 0xF018#16,
    0xF01E#16, 0xF129#16, 0xF230#16, 0xF033#16, 0xF155#16, 0xF265#16].map (decode true) =
    [.ok (.ldI 0x300#12), .ok (.jpOff 0x210#12), .ok (.rnd 3#4 0x0F#8), .ok (.drw 0#4 1#4 5#4), .ok (.skp 2#4),
      .ok (.sknp 2#4), .ok (.ldFromDt 3#4), .ok (.ldK 3#4), .ok (.ldDt 0#4), .ok (.ldSt 0#4), .ok (.addI 0#4),
      .ok (.ldF 1#4), .ok (.ldHf 2#4), .ok (.ldB 0#4), .ok (.ldStore 1#4), .ok (.ldLoad 2#4)]

/-- Which words are ILLEGAL for their sub-code (R127, R128), and that the families without a sub-code
have no illegal word (R129). -/
def Obligations.IllegalSubcodes : Prop :=
  ∀ (ext : Bool) (w : Word),
    (w.toNat / 4096 = 0 → ((∃ i, decode ext w = .ok i) ↔ w.toNat = 0x00E0 ∨ w.toNat = 0x00EE ∨
      (ext = true ∧ (w.toNat / 16 = 0x00C ∨ (0x00FB ≤ w.toNat ∧ w.toNat ≤ 0x00FF))))) ∧
    (w.toNat / 4096 = 5 ∨ w.toNat / 4096 = 9 → ((∃ i, decode ext w = .ok i) ↔ w.toNat % 16 = 0)) ∧
    (w.toNat / 4096 = 8 → ((∃ i, decode ext w = .ok i) ↔ w.toNat % 16 ≤ 7 ∨ w.toNat % 16 = 0xE)) ∧
    (w.toNat / 4096 = 0xE → ((∃ i, decode ext w = .ok i) ↔ w.toNat % 256 = 0x9E ∨ w.toNat % 256 = 0xA1)) ∧
    (w.toNat / 4096 = 0xF → ((∃ i, decode ext w = .ok i) ↔
      w.toNat % 256 ∈ [0x07, 0x0A, 0x15, 0x18, 0x1E, 0x29, 0x33, 0x55, 0x65] ∨
        (ext = true ∧ w.toNat % 256 = 0x30))) ∧
    (w.toNat / 4096 ∈ [1, 2, 3, 4, 6, 7, 0xA, 0xB, 0xC, 0xD] → ∃ i, decode ext w = .ok i)

/-! ## The step (40_step_cycle.md) -/

/-- A running machine whose two bytes at `pc` decode to an instruction runs exactly that instruction (R84,
R161, R163, R169); exec itself makes the advance past the word (R162), as the statements about it say. -/
def Obligations.StepRunsDecodedInstruction : Prop :=
  ∀ (s : State) (i : Instr), s.status = .running → s.fetchInRange →
    decode s.quirks.extendedOpcodes s.wordAtPc = .ok i → step s = exec i s

/-- The fetch (R161, R84): the word at `pc`, high byte first; where a byte of it is outside memory, the step faults
before any execution, with the first such address and no opcode. -/
def Obligations.FetchRule : Prop :=
  ∀ s : State,
    (s.fetchInRange → s.fetch = .ok s.wordAtPc ∧
      s.wordAtPc.toNat = (s.byteAt s.pc.toNat).toNat * 256 + (s.byteAt (s.pc.toNat + 1)).toNat) ∧
    (s.status = .running → ¬ s.fetchInRange →
      ∃ t, step s = .next t ∧
        FaultEntry s t .memoryBounds none (some (if s.pc.toNat ≥ 4096 then s.pc.toNat else s.pc.toNat + 1)))

/-- An ILLEGAL word raises FatalDecode with the raw opcode and the fetch address and changes no other state
(R131, R167). -/
def Obligations.IllegalWordFaults : Prop :=
  ∀ (s : State) (e : Illegal), s.status = .running → s.fetchInRange →
    decode s.quirks.extendedOpcodes s.wordAtPc = .error e →
    ∃ t, step s = .next t ∧ FaultEntry s t .fatalDecode (some s.wordAtPc) none

/-- Faults are precise (R166): whatever the instruction, a step that ends Faulted changed only `status` and
`fault`, and the record holds the fetch address and the raw opcode (none if the fetch faulted). -/
def Obligations.FaultsArePrecise : Prop :=
  ∀ s t : State, s.status = .running → step s = .next t → t.status = .faulted →
    OnlyChanges s t [.status, .faultRecord] ∧
    ∃ cause info, t.fault = some ⟨cause, if s.pc.toNat + 1 < 4096 then some s.wordAtPc else none, s.pc, info⟩

/-- Every step answers a next state: no instruction and no state ends a run or is refused (R165, R372). -/
def Obligations.EveryStepAnswersNext : Prop :=
  (∀ s : State, ∃ t, step s = .next t) ∧ ∀ (i : Instr) (s : State), ∃ t, exec i s = .next t

/-- The `Extended`-only instructions (R130): `Extended` decodes their words; in `Base` a word of theirs does not
decode, and a step that fetches it takes FatalDecode with its opcode (R131). No word is legal in `Base` only. That exec
of such an instruction on a `Base` state, which no step reaches, takes FatalDecode with the instruction's own word is
the model's (DEDUCED, notes/assumptions/8.md). -/
def Obligations.ExtendedOnlyFaultsInBase : Prop :=
  (∀ (s : State) (i : Instr),
    (∃ n, i = .scd n) ∨ i = .scr ∨ i = .scl ∨ i = .exit ∨ i = .low ∨ i = .high ∨ (∃ x, i = .ldHf x) →
    decode true (encode i) = .ok i ∧ decode false (encode i) = .error .extendedOnly ∧
    (s.cfg.variant = .base → TakesFault i s .fatalDecode none ∧
      (s.status = .running → s.fetchInRange → s.wordAtPc = encode i →
        ∃ t, step s = .next t ∧ FaultEntry s t .fatalDecode (some (encode i)) none))) ∧
  ∀ (w : Word) (i : Instr), decode false w = .ok i → decode true w = .ok i

/-- The quirk switches of each variant (R60) and the capability switch (R62). -/
def Obligations.QuirkTable : Prop :=
  ∀ v : Variant,
    (quirksOf v).resetFlagOnLogicOps = (v == .base) ∧
    (quirksOf v).memoryIncrementOnBulkTransfer = (v == .base) ∧
    (quirksOf v).shiftUsesSecondOperand = (v == .base) ∧
    (quirksOf v).jumpAddsRegisterIndexedByHighNibble = (v == .extended) ∧
    (quirksOf v).extendedOpcodes = (v == .extended)

/-! ## Memory (20_memory.md) -/

/-- One byte access (R81, R82, R83): inside memory it reads the byte, or stores it and no other; outside it
is MemoryBounds with the address, never wrapped. -/
def Obligations.ByteAccessRule : Prop :=
  ∀ (s : State) (a : Nat) (b : Byte),
    (a < 4096 → s.memRead a = .ok (s.byteAt a) ∧
      ∃ t, s.memWrite a b = .ok t ∧ OnlyChanges s t [.memByte a] ∧ t.byteAt a = b) ∧
    (4096 ≤ a → s.memRead a = .error ⟨.memoryBounds, some a⟩ ∧ s.memWrite a b = .error ⟨.memoryBounds, some a⟩)

/-- Memories in canonical form that read the same at every address are the same data (the canonical form is the
model's representation, notes/assumptions/5.md). -/
def Obligations.CanonicalMemoriesAreEqual : Prop :=
  ∀ (c : Config) (m m' : Memory), Memory.wf c m → Memory.wf c m' →
    (∀ a, a < 4096 → Memory.read c m a = Memory.read c m' a) → m = m'

/-! ## Reset and the host operations (20_memory.md, 60_exceptions.md, 70_reset_and_hazards.md) -/

/-- Reset (R420, R421), from any state: every piece of state at its reset value, the glyphs copied again (HIFONT_IN_BASE
at its default, D15), the configuration kept, no event emitted. -/
def Obligations.ResetRestores : Prop :=
  ∀ s : State, ∃ t, hostStep .reset s = .next t ∧
    (∀ x, t.getV x = 0#8) ∧ t.pc = 0x200#16 ∧ t.i = 0#16 ∧ t.sp.val = 0 ∧ (∀ j : Fin 16, t.stack[j] = 0#16) ∧
    t.dt = 0#8 ∧ t.st = 0#8 ∧ t.mode = .low ∧ t.fb = List.replicate (64 * 32) false ∧
    (∀ k : Fin 16, t.key[k] = false ∧ t.prevKey[k] = false) ∧ t.status = .running ∧ t.fault = none ∧
    t.cfg = s.cfg ∧ t.events = s.events ∧
    (s.cfg.hifontInBase = false → ∀ a, a < 4096 → t.byteAt a =
      if s.cfg.variant = .extended ∧ s.cfg.fontHiBase ≤ a ∧ a < s.cfg.fontHiBase + 100 then
        s.cfg.fontHi.toList.getD (a - s.cfg.fontHiBase) 0#8
      else if a < 80 then s.cfg.fontLo.toList.getD a 0#8 else 0#8)

/-- The constructed state is the state after Reset (R422), and the machine the host runs is the constructed
`Extended` one with default parameters (the model's choice, notes/assumptions/1.md). -/
def Obligations.ConstructedIsReset : Prop :=
  (∀ c : Config, hostStep .reset (State.construct c) = .next (State.construct c)) ∧
  Sys2Proof.core.reset = State.construct (defaultConfig .extended)

/-- The invariants hold of every constructed machine. -/
def Obligations.ResetMeetsInvariants : Prop := ∀ c : Config, (State.construct c).Inv

/-- Every step keeps the invariants: canonical memory, a framebuffer of W*H cells, `Base` in low resolution, a
fault record exactly while Faulted, `pc` at most 0x10FE, every return address at most 0x1000. -/
def Obligations.StepKeepsInvariants : Prop := ∀ s t : State, s.Inv → step s = .next t → t.Inv

/-- Every host operation keeps the invariants, so every run of them does. -/
def Obligations.HostRunKeepsInvariants : Prop :=
  ∀ (ops : List HostOp) (s t : State), s.Inv → hostRun ops s = .next t → t.Inv

/-- Tick (R390, R391, R392): each timer down by at most 1, floor 0, in any status; StartBeep if ST was not 0,
then StopBeep if ST ends at 0. -/
def Obligations.TickRule : Prop :=
  ∀ s : State, ∃ t, hostStep .tick s = .next t ∧ OnlyChanges s t [.delayTimer, .soundTimer, .events] ∧
    t.dt.toNat = s.dt.toNat - 1 ∧ t.st.toNat = s.st.toNat - 1 ∧
    t.events = s.events ++ ((if 0 < s.st.toNat then [Event.startBeep] else []) ++
      (if s.st.toNat ≤ 1 then [Event.stopBeep] else []))

/-- SetKey (R400, R401), in any status: key k's two entries and no other (EDGE_HISTORY at its default, D10); a key
above 15 is refused. -/
def Obligations.SetKeyRule : Prop :=
  ∀ (s : State) (k : Nat) (pressed : Bool), s.cfg.edgeHistory = .perKey →
    (∀ h : k < 16, ∃ t, hostStep (.setKey k pressed) s = .next t ∧
      OnlyChanges s t [.key ⟨k, h⟩, .prevKey ⟨k, h⟩] ∧ t.key[k] = pressed ∧ t.prevKey[k] = s.key[k]) ∧
    (15 < k → hostStep (.setKey k pressed) s = .refused (.setKeyOutOfRange k))

/-- Load (R101, R102), in any status: the bytes from 0x200 on and nothing else; more than 3584 are refused. -/
def Obligations.LoadRule : Prop :=
  ∀ (s : State) (bytes : List Byte),
    (bytes.length ≤ 3584 → ∃ t, hostStep (.load bytes) s = .next t ∧
      OnlyChanges s t (memSpan 0x200 bytes.length) ∧
      ∀ j, (h : j < bytes.length) → t.byteAt (0x200 + j) = bytes[j]) ∧
    (3584 < bytes.length → hostStep (.load bytes) s = .refused (.loadTooLong bytes.length))

/-- ReadDisplay (R402): a snapshot of the cells, the size and the mode, and no change of state. -/
def Obligations.ReadDisplayRule : Prop :=
  ∀ s : State, hostStep .readDisplay s = .next s ∧ (readDisplay s).cells = s.fb ∧ (readDisplay s).mode = s.mode ∧
    (s.mode = .low → (readDisplay s).width = 64 ∧ (readDisplay s).height = 32) ∧
    (s.mode = .high → (readDisplay s).width = 128 ∧ (readDisplay s).height = 64)

/-- A halt (R160, R380): a Step of a halted machine changes nothing; in any run of host operations without a Reset it
keeps its status and its fault record; Reset makes it run again. -/
def Obligations.HaltLeftOnlyByReset : Prop :=
  ∀ s : State, s.Halted → step s = .next s ∧
    (∀ (ops : List HostOp) (t : State), HostOp.reset ∉ ops → hostRun ops s = .next t →
      t.status = s.status ∧ t.fault = s.fault) ∧
    ∃ t, hostStep .reset s = .next t ∧ t.status = .running ∧ t.fault = none

/-! ## Control transfer (41_control_flow.md) -/

/-- JP nnn (R183) and JP V0, nnn (R185): `pc` is nnn, or nnn plus V[0] in `Base` and the register of nnn's
high nibble in `Extended`; the sum is not reduced mod 0x1000. -/
def Obligations.JumpRule : Prop :=
  ∀ (nnn : Addr) (s : State),
    (encode (.jp nnn)).toNat = 0x1000 + nnn.toNat ∧ (encode (.jpOff nnn)).toNat = 0xB000 + nnn.toNat ∧
    Completes (.jp nnn) s [.pc] (fun t => t.pc.toNat = nnn.toNat) ∧
    Completes (.jpOff nnn) s [.pc] fun t =>
      (s.cfg.variant = .base → t.pc.toNat = nnn.toNat + (s.getV 0#4).toNat) ∧
      (s.cfg.variant = .extended → t.pc.toNat = nnn.toNat + (s.getV (BitVec.ofNat 4 (nnn.toNat / 256))).toNat)

/-- CALL nnn (R184): pushes the address of the following instruction; at full depth StackOverflow. -/
def Obligations.CallRule : Prop :=
  ∀ (nnn : Addr) (s : State),
    (encode (.call nnn)).toNat = 0x2000 + nnn.toNat ∧
    (∀ h : s.sp.val < 16, Completes (.call nnn) s [.pc, .sp, .stackEntry ⟨s.sp.val, h⟩] fun t =>
      t.pc.toNat = nnn.toNat ∧ t.sp.val = s.sp.val + 1 ∧ t.stack[s.sp.val] = s.pc + 2) ∧
    (s.sp.val = 16 → TakesFault (.call nnn) s .stackOverflow none)

/-- RET (R182): pops into `pc`, leaving the entry as it was (R43); on an empty stack StackUnderflow. -/
def Obligations.ReturnRule : Prop :=
  ∀ s : State,
    (encode .ret).toNat = 0x00EE ∧
    (∀ h : 0 < s.sp.val, Completes .ret s [.pc, .sp] fun t =>
      t.pc = s.stack[s.sp.val - 1]'(Nat.lt_of_lt_of_le (Nat.sub_lt h Nat.one_pos) (Nat.le_of_lt_succ s.sp.isLt)) ∧
      t.sp.val = s.sp.val - 1) ∧
    (s.sp.val = 0 → TakesFault .ret s .stackUnderflow none)

/-- SE Vx, nn and SNE Vx, nn (R186, R187): a taken skip adds 2 more to `pc`; nothing else changes. -/
def Obligations.SkipImmediateRule : Prop :=
  ∀ (x : Nibble) (nn : Byte) (s : State),
    (encode (.seImm x nn)).toNat = 0x3000 + x.toNat * 256 + nn.toNat ∧
    (encode (.sneImm x nn)).toNat = 0x4000 + x.toNat * 256 + nn.toNat ∧
    Completes (.seImm x nn) s [.pc] (fun t => t.pc = if s.getV x = nn then s.pc + 2 + 2 else s.pc + 2) ∧
    Completes (.sneImm x nn) s [.pc] (fun t => t.pc = if s.getV x ≠ nn then s.pc + 2 + 2 else s.pc + 2)

/-- SE Vx, Vy and SNE Vx, Vy (R188, R189), and the fault of a word of their families with another low nibble. -/
def Obligations.SkipRegisterRule : Prop :=
  ∀ (x y : Nibble) (s : State),
    (encode (.seReg x y)).toNat = 0x5000 + x.toNat * 256 + y.toNat * 16 ∧
    (encode (.sneReg x y)).toNat = 0x9000 + x.toNat * 256 + y.toNat * 16 ∧
    Completes (.seReg x y) s [.pc] (fun t => t.pc = if s.getV x = s.getV y then s.pc + 2 + 2 else s.pc + 2) ∧
    Completes (.sneReg x y) s [.pc] (fun t => t.pc = if s.getV x ≠ s.getV y then s.pc + 2 + 2 else s.pc + 2) ∧
    (s.status = .running → s.fetchInRange → s.wordAtPc.toNat / 4096 = 5 ∨ s.wordAtPc.toNat / 4096 = 9 →
      s.wordAtPc.toNat % 16 ≠ 0 → ∃ t, step s = .next t ∧ FaultEntry s t .fatalDecode (some s.wordAtPc) none)

/-! ## Register loads and the ALU (42_alu.md) -/

/-- LD Vx, nn (R222) and LD Vx, Vy (R224): the destination alone, VF included as a plain destination. -/
def Obligations.RegisterLoadRule : Prop :=
  ∀ (x y : Nibble) (nn : Byte) (s : State),
    (encode (.ldImm x nn)).toNat = 0x6000 + x.toNat * 256 + nn.toNat ∧
    (encode (.ldReg x y)).toNat = 0x8000 + x.toNat * 256 + y.toNat * 16 ∧
    Completes (.ldImm x nn) s [.pc, .reg x] (fun t => t.getV x = nn ∧ t.pc = s.pc + 2) ∧
    Completes (.ldReg x y) s [.pc, .reg x] (fun t => t.getV x = s.getV y ∧ t.pc = s.pc + 2)

/-- ADD Vx, nn (R223): mod 256, and VF is not written. -/
def Obligations.AddImmediateRule : Prop :=
  ∀ (x : Nibble) (nn : Byte) (s : State),
    (encode (.addImm x nn)).toNat = 0x7000 + x.toNat * 256 + nn.toNat ∧
    Completes (.addImm x nn) s [.pc, .reg x] fun t =>
      (t.getV x).toNat = ((s.getV x).toNat + nn.toNat) % 256 ∧ t.pc = s.pc + 2

/-- OR, AND, XOR (R225, R226, R227): in `Base` VF ends at 0, also when it is the destination; in `Extended` VF
is unchanged unless it is the destination. -/
def Obligations.LogicRule : Prop :=
  ∀ (x y : Nibble) (s : State),
    ∀ p ∈ [(Instr.or x y, 1, s.getV x ||| s.getV y), (Instr.and x y, 2, s.getV x &&& s.getV y),
        (Instr.xor x y, 3, s.getV x ^^^ s.getV y)],
      (encode p.1).toNat = 0x8000 + x.toNat * 256 + y.toNat * 16 + p.2.1 ∧
      (s.cfg.variant = .base → Completes p.1 s [.pc, .reg x, .reg 0xF#4] fun t =>
        (x ≠ 0xF#4 → t.getV x = p.2.2) ∧ t.getV 0xF#4 = 0#8 ∧ t.pc = s.pc + 2) ∧
      (s.cfg.variant = .extended → Completes p.1 s [.pc, .reg x] fun t => t.getV x = p.2.2 ∧ t.pc = s.pc + 2)

/-- ADD Vx, Vy (R228): the sum mod 256, VF the carry; with VF as the destination the carry stays (R168). -/
def Obligations.AddRegisterRule : Prop :=
  ∀ (x y : Nibble) (s : State),
    (encode (.addReg x y)).toNat = 0x8000 + x.toNat * 256 + y.toNat * 16 + 4 ∧
    Completes (.addReg x y) s [.pc, .reg x, .reg 0xF#4] fun t =>
      (x ≠ 0xF#4 → (t.getV x).toNat = ((s.getV x).toNat + (s.getV y).toNat) % 256) ∧
      (t.getV 0xF#4).toNat = (if (s.getV x).toNat + (s.getV y).toNat > 255 then 1 else 0) ∧ t.pc = s.pc + 2

/-- SUB Vx, Vy (R229) and SUBN Vx, Vy (R231): the difference mod 256, VF is NOT borrow. -/
def Obligations.SubtractRule : Prop :=
  ∀ (x y : Nibble) (s : State),
    ∀ p ∈ [(Instr.sub x y, 5, s.getV x, s.getV y), (Instr.subn x y, 7, s.getV y, s.getV x)],
      (encode p.1).toNat = 0x8000 + x.toNat * 256 + y.toNat * 16 + p.2.1 ∧
      Completes p.1 s [.pc, .reg x, .reg 0xF#4] fun t =>
        (x ≠ 0xF#4 → (t.getV x).toNat = (p.2.2.1.toNat + 256 - p.2.2.2.toNat) % 256) ∧
        (t.getV 0xF#4).toNat = (if p.2.2.1.toNat ≥ p.2.2.2.toNat then 1 else 0) ∧ t.pc = s.pc + 2

/-- SHR Vx, Vy (R230) and SHL Vx, Vy (R232): `Base` shifts V[y], `Extended` V[x]; VF is the bit shifted out. -/
def Obligations.ShiftRule : Prop :=
  ∀ (x y : Nibble) (s : State) (src : Byte), (src = if s.cfg.variant = .base then s.getV y else s.getV x) →
    (encode (.shr x y)).toNat = 0x8000 + x.toNat * 256 + y.toNat * 16 + 6 ∧
    (encode (.shl x y)).toNat = 0x8000 + x.toNat * 256 + y.toNat * 16 + 0xE ∧
    Completes (.shr x y) s [.pc, .reg x, .reg 0xF#4] (fun t =>
      (x ≠ 0xF#4 → (t.getV x).toNat = src.toNat / 2) ∧ (t.getV 0xF#4).toNat = src.toNat % 2 ∧ t.pc = s.pc + 2) ∧
    Completes (.shl x y) s [.pc, .reg x, .reg 0xF#4] (fun t =>
      (x ≠ 0xF#4 → (t.getV x).toNat = src.toNat * 2 % 256) ∧ (t.getV 0xF#4).toNat = src.toNat / 128 ∧
      t.pc = s.pc + 2)

/-- RND Vx, nn (R233): the random byte AND the mask. The random byte is the model's free value
(notes/assumptions/2.md); the next draw is another one. -/
def Obligations.RandomRule : Prop :=
  ∀ (x : Nibble) (nn : Byte) (s : State),
    (encode (.rnd x nn)).toNat = 0xC000 + x.toNat * 256 + nn.toNat ∧
    Completes (.rnd x nn) s [.pc, .reg x, .draws] fun t =>
      t.getV x = Config.randomByte s.draws &&& nn ∧ t.draws = s.draws + 1 ∧ t.pc = s.pc + 2

/-! ## The index register and memory transfer (43_index_memory.md) -/

/-- LD I, nnn (R260) and ADD I, Vx (R261): I mod 65536, VF not written. -/
def Obligations.IndexRule : Prop :=
  ∀ (nnn : Addr) (x : Nibble) (s : State),
    (encode (.ldI nnn)).toNat = 0xA000 + nnn.toNat ∧ (encode (.addI x)).toNat = 0xF01E + x.toNat * 256 ∧
    Completes (.ldI nnn) s [.pc, .index] (fun t => t.i.toNat = nnn.toNat ∧ t.pc = s.pc + 2) ∧
    Completes (.addI x) s [.pc, .index] (fun t =>
      t.i.toNat = (s.i.toNat + (s.getV x).toNat) % 65536 ∧ t.pc = s.pc + 2)

/-- LD F, Vx (R262) and LD HF, Vx (R263, `Extended` only): the glyph's address, the digit being the low nibble of V[x]
(FONT_DIGIT_MASK at its default, D14; other masks: NonDefaultParameterRule); FX30 is FatalDecode in `Base`. FX30's
address is reduced mod 65536 as every write to I is (R39); that FONT_HI_BASE may be any number, above the address space
too, is the model's choice (DESIGN CHOICE, notes/assumptions/12.md). -/
def Obligations.GlyphAddressRule : Prop :=
  ∀ (x : Nibble) (s : State), s.cfg.fontDigitMask = 0x0F#8 →
    (encode (.ldF x)).toNat = 0xF029 + x.toNat * 256 ∧ (encode (.ldHf x)).toNat = 0xF030 + x.toNat * 256 ∧
    Completes (.ldF x) s [.pc, .index] (fun t => t.i.toNat = 5 * ((s.getV x).toNat % 16) ∧ t.pc = s.pc + 2) ∧
    (s.cfg.variant = .extended → Completes (.ldHf x) s [.pc, .index] fun t =>
      t.i.toNat = (s.cfg.fontHiBase + 10 * ((s.getV x).toNat % 16)) % 65536 ∧
      (s.cfg.fontHiBase = 0x100 → t.i.toNat = 0x100 + 10 * ((s.getV x).toNat % 16)) ∧ t.pc = s.pc + 2) ∧
    (s.cfg.variant = .base → TakesFault (.ldHf x) s .fatalDecode none)

/-- LD B, Vx (R264): the decimal digits at I, I + 1, I + 2, and I unchanged; MemoryBounds, with no byte
written, if I + 2 is not in memory. -/
def Obligations.BcdRule : Prop :=
  ∀ (x : Nibble) (s : State),
    (encode (.ldB x)).toNat = 0xF033 + x.toNat * 256 ∧
    (s.i.toNat + 2 < 4096 →
      Completes (.ldB x) s [.pc, .memByte s.i.toNat, .memByte (s.i.toNat + 1), .memByte (s.i.toNat + 2)] fun t =>
        (t.byteAt s.i.toNat).toNat = (s.getV x).toNat / 100 ∧
        (t.byteAt (s.i.toNat + 1)).toNat = (s.getV x).toNat / 10 % 10 ∧
        (t.byteAt (s.i.toNat + 2)).toNat = (s.getV x).toNat % 10 ∧ t.pc = s.pc + 2) ∧
    (4096 ≤ s.i.toNat + 2 → TakesFault (.ldB x) s .memoryBounds (some (firstOutOfRange s.i.toNat)))

/-- LD [I], Vx (R265): V0 to Vx to memory from I on; `Base` leaves I advanced by x + 1, `Extended` leaves it;
MemoryBounds, with nothing written, if I + x is not in memory. -/
def Obligations.BulkStoreRule : Prop :=
  ∀ (x : Nibble) (s : State),
    (encode (.ldStore x)).toNat = 0xF055 + x.toNat * 256 ∧
    (s.i.toNat + x.toNat < 4096 →
      Completes (.ldStore x) s (.pc :: .index :: memSpan s.i.toNat (x.toNat + 1)) fun t =>
        (∀ k : Nibble, k.toNat ≤ x.toNat → t.byteAt (s.i.toNat + k.toNat) = s.getV k) ∧
        (s.cfg.variant = .base → t.i.toNat = (s.i.toNat + x.toNat + 1) % 65536) ∧
        (s.cfg.variant = .extended → t.i = s.i) ∧ t.pc = s.pc + 2) ∧
    (4096 ≤ s.i.toNat + x.toNat → TakesFault (.ldStore x) s .memoryBounds (some (firstOutOfRange s.i.toNat)))

/-- LD Vx, [I] (R266): V0 to Vx from memory at I on, VF as a plain register; I as for the store; MemoryBounds,
with no register changed, if I + x is not in memory. -/
def Obligations.BulkLoadRule : Prop :=
  ∀ (x : Nibble) (s : State),
    (encode (.ldLoad x)).toNat = 0xF065 + x.toNat * 256 ∧
    (s.i.toNat + x.toNat < 4096 →
      Completes (.ldLoad x) s (.pc :: .index :: regsUpTo x) fun t =>
        (∀ k : Nibble, k.toNat ≤ x.toNat → t.getV k = s.byteAt (s.i.toNat + k.toNat)) ∧
        (s.cfg.variant = .base → t.i.toNat = (s.i.toNat + x.toNat + 1) % 65536) ∧
        (s.cfg.variant = .extended → t.i = s.i) ∧ t.pc = s.pc + 2) ∧
    (4096 ≤ s.i.toNat + x.toNat → TakesFault (.ldLoad x) s .memoryBounds (some (firstOutOfRange s.i.toNat)))

/-! ## The display (44_display.md) -/

/-- CLS (R290): W*H unset cells of the current mode, whatever the framebuffer held. -/
def Obligations.ClearRule : Prop :=
  ∀ s : State, (encode .cls).toNat = 0x00E0 ∧ Completes .cls s [.pc, .framebuffer] fun t =>
    (s.mode = .low → t.fb = List.replicate (64 * 32) false) ∧
    (s.mode = .high → t.fb = List.replicate (128 * 64) false) ∧ t.pc = s.pc + 2

/-- LOW (R298) and HIGH (R299): in `Extended` the mode, and a cleared buffer of its size, also when the mode
was that one already (CLEAR_ON_SAME_MODE at its default, D24); in `Base` FatalDecode. -/
def Obligations.ResolutionRule : Prop :=
  ∀ s : State, ∀ p ∈ [(Instr.low, 0x00FE, Mode.low, 64 * 32), (Instr.high, 0x00FF, Mode.high, 128 * 64)],
    (encode p.1).toNat = p.2.1 ∧
    (s.cfg.variant = .extended → s.cfg.clearOnSameMode = true →
      Completes p.1 s [.pc, .mode, .framebuffer] fun t =>
        t.mode = p.2.2.1 ∧ t.fb = List.replicate p.2.2.2 false ∧ t.pc = s.pc + 2) ∧
    (s.cfg.variant = .base → TakesFault p.1 s .fatalDecode none)

/-- DRW Vx, Vy, n (R291 to R297). When every byte it reads is in memory (clipped rows are not read): each cell the
sprite covers is inverted and no other, and VF is 1 exactly if a covered cell was set. Otherwise MemoryBounds at the
first byte outside memory; nothing is drawn and VF is unchanged. -/
def Obligations.DrawRule : Prop :=
  ∀ (x y n : Nibble) (s : State), s.DisplayFits →
    (encode (.drw x y n)).toNat = 0xD000 + x.toNat * 256 + y.toNat * 16 + n.toNat ∧
    (SpriteInRange s y n → Completes (.drw x y n) s [.pc, .framebuffer, .reg 0xF#4] fun t =>
      t.fb.length = s.fb.length ∧
      (∀ px py, px < s.mode.width → py < s.mode.height →
        t.cell px py = (s.cell px py ^^ spriteCovers s x y n px py)) ∧
      ((∃ px py, px < s.mode.width ∧ py < s.mode.height ∧ spriteCovers s x y n px py = true ∧ s.cell px py = true) →
        t.getV 0xF#4 = 1#8) ∧
      ((∀ px py, px < s.mode.width → py < s.mode.height → spriteCovers s x y n px py = true → s.cell px py = false) →
        t.getV 0xF#4 = 0#8) ∧
      t.pc = s.pc + 2) ∧
    (¬ SpriteInRange s y n → TakesFault (.drw x y n) s .memoryBounds (some (firstOutOfRange s.i.toNat)))

/-- Drawing the same sprite twice (R300): the framebuffer is as before the first draw, and the second draw
sets VF exactly if the first turned a cell from unset to set. -/
def Obligations.DrawTwiceRestores : Prop :=
  ∀ (x y n : Nibble) (s : State), x ≠ 0xF#4 → y ≠ 0xF#4 → s.DisplayFits → SpriteInRange s y n →
    ∃ t u, exec (.drw x y n) s = .next t ∧ exec (.drw x y n) t = .next u ∧ u.fb = s.fb ∧
      (u.getV 0xF#4 = 1#8 ↔ ∃ px py, px < s.mode.width ∧ py < s.mode.height ∧
        s.cell px py = false ∧ t.cell px py = true) ∧
      (u.getV 0xF#4 = 0#8 ∨ u.getV 0xF#4 = 1#8)

/-! ## Timers and keys (45_timers_keys.md) -/

/-- LD Vx, DT (R320), LD DT, Vx (R321) and LD ST, Vx (R322); no audio event. -/
def Obligations.TimerInstructionRule : Prop :=
  ∀ (x : Nibble) (s : State),
    (encode (.ldFromDt x)).toNat = 0xF007 + x.toNat * 256 ∧ (encode (.ldDt x)).toNat = 0xF015 + x.toNat * 256 ∧
    (encode (.ldSt x)).toNat = 0xF018 + x.toNat * 256 ∧
    Completes (.ldFromDt x) s [.pc, .reg x] (fun t => t.getV x = s.dt ∧ t.pc = s.pc + 2) ∧
    Completes (.ldDt x) s [.pc, .delayTimer] (fun t => t.dt = s.getV x ∧ t.pc = s.pc + 2) ∧
    Completes (.ldSt x) s [.pc, .soundTimer] (fun t => t.st = s.getV x ∧ t.pc = s.pc + 2)

/-- SKP Vx (R323) and SKNP Vx (R324): only `key` is read; a key number above 15 is KeyIndex with that value. -/
def Obligations.KeySkipRule : Prop :=
  ∀ (x : Nibble) (s : State),
    (encode (.skp x)).toNat = 0xE09E + x.toNat * 256 ∧ (encode (.sknp x)).toNat = 0xE0A1 + x.toNat * 256 ∧
    (∀ h : (s.getV x).toNat < 16,
      Completes (.skp x) s [.pc] (fun t =>
        t.pc = if s.key[(s.getV x).toNat] = true then s.pc + 2 + 2 else s.pc + 2) ∧
      Completes (.sknp x) s [.pc] (fun t =>
        t.pc = if s.key[(s.getV x).toNat] = false then s.pc + 2 + 2 else s.pc + 2)) ∧
    (15 < (s.getV x).toNat →
      TakesFault (.skp x) s .keyIndex (some (s.getV x).toNat) ∧
      TakesFault (.sknp x) s .keyIndex (some (s.getV x).toNat))

/-- LD Vx, K (R325), KEYWAIT_PICK and KEYWAIT_CONSUMES at their defaults (D11, D12). With a release edge: V[x] is the
lowest key with an edge, the instruction proceeds, and the edge stays. With none: the state is exactly as before,
however often the instruction runs (R326). -/
def Obligations.KeyWaitRule : Prop :=
  ∀ (x : Nibble) (s : State), s.cfg.keywaitPick = .lowest → s.cfg.keywaitConsumes = false →
    (encode (.ldK x)).toNat = 0xF00A + x.toNat * 256 ∧
    ((∃ k : Fin 16, s.key[k] = false ∧ s.prevKey[k] = true) →
      ∃ k : Fin 16, s.key[k] = false ∧ s.prevKey[k] = true ∧
        (∀ j : Fin 16, j < k → ¬ (s.key[j] = false ∧ s.prevKey[j] = true)) ∧
        Completes (.ldK x) s [.pc, .reg x] fun t => (t.getV x).toNat = k.val ∧ t.pc = s.pc + 2) ∧
    ((∀ k : Fin 16, ¬ (s.key[k] = false ∧ s.prevKey[k] = true)) → exec (.ldK x) s = .next s)

/-- The wait does not time out (R327): however many Steps and Ticks come, a machine waiting at an FX0A with no
release edge stays there, and only the timers and the audio events change. -/
def Obligations.KeyWaitNeverTimesOut : Prop :=
  ∀ (x : Nibble) (ops : List HostOp) (s : State), (∀ op ∈ ops, op = .step ∨ op = .tick) →
    s.status = .running → s.fetchInRange → s.wordAtPc = encode (.ldK x) →
    (∀ k : Fin 16, ¬ (s.key[k] = false ∧ s.prevKey[k] = true)) →
    ∃ t, hostRun ops s = .next t ∧ OnlyChanges s t [.delayTimer, .soundTimer, .events]

/-! ## System instructions (46_system.md) -/

/-- EXIT (R350): in `Extended` Terminated, `pc` after it, no fault; in `Base` FatalDecode. -/
def Obligations.ExitRule : Prop :=
  ∀ s : State, (encode .exit).toNat = 0x00FD ∧
    (s.cfg.variant = .extended → Completes .exit s [.pc, .status] fun t =>
      t.status = .terminated ∧ t.pc = s.pc + 2) ∧
    (s.cfg.variant = .base → TakesFault .exit s .fatalDecode none)

/-- The reserved no-ops (R351, R352, R353): in `Extended` one Diagnostic with the raw opcode and the fetch
address, `pc` after it, nothing else (R354); in `Base` FatalDecode. -/
def Obligations.ReservedRule : Prop :=
  ∀ (n : Nibble) (s : State),
    ∀ p ∈ [(Instr.scd n, 0x00C0 + n.toNat), (Instr.scr, 0x00FB), (Instr.scl, 0x00FC)],
      (encode p.1).toNat = p.2 ∧
      (s.cfg.variant = .extended → Completes p.1 s [.pc, .events] fun t =>
        t.events = s.events ++ [.diagnostic (BitVec.ofNat 16 p.2) s.pc] ∧ t.pc = s.pc + 2) ∧
      (s.cfg.variant = .base → TakesFault p.1 s .fatalDecode none)

/-! ## The parameters of A.3 away from their defaults -/

/-- What the parameters of 93_implementation_defined.md A.3 do away from their defaults. The spec names the
parameters and writes its rules for the defaults; these meanings are the model's choice (notes/assumptions/7.md). -/
def Obligations.NonDefaultParameterRule : Prop :=
  (∀ (s : State) (k : Nat) (pressed : Bool), s.cfg.edgeHistory = .wholeArray → ∀ h : k < 16,
    ∃ t, hostStep (.setKey k pressed) s = .next t ∧
      OnlyChanges s t (.key ⟨k, h⟩ :: (List.finRange 16).map StatePart.prevKey) ∧
      t.key[k] = pressed ∧ t.prevKey = s.key) ∧
  (∀ (x : Nibble) (s : State), (∃ k : Fin 16, s.key[k] = false ∧ s.prevKey[k] = true) →
    ∃ k : Fin 16, s.key[k] = false ∧ s.prevKey[k] = true ∧
      (s.cfg.keywaitPick = .highest → ∀ j : Fin 16, k < j → ¬ (s.key[j] = false ∧ s.prevKey[j] = true)) ∧
      Completes (.ldK x) s [.pc, .reg x, .prevKey k] fun t =>
        (t.getV x).toNat = k.val ∧ (s.cfg.keywaitConsumes = true → t.prevKey[k] = false) ∧ t.pc = s.pc + 2) ∧
  (∀ s : State, s.cfg.variant = .extended → s.cfg.clearOnSameMode = false →
    (s.mode = .low → Completes .low s [.pc] fun t => t.pc = s.pc + 2) ∧
    (s.mode = .high → Completes .high s [.pc] fun t => t.pc = s.pc + 2)) ∧
  (∀ (x : Nibble) (s : State),
    Completes (.ldF x) s [.pc, .index] (fun t => t.i.toNat = 5 * (s.getV x &&& s.cfg.fontDigitMask).toNat) ∧
    (s.cfg.variant = .extended → Completes (.ldHf x) s [.pc, .index] fun t =>
      t.i.toNat = (s.cfg.fontHiBase + 10 * (s.getV x &&& s.cfg.fontDigitMask).toNat) % 65536)) ∧
  (∀ (s : State) (a : Nat), s.cfg.hifontInBase = true → s.cfg.fontHiBase ≤ a → a < s.cfg.fontHiBase + 100 →
    ∃ t, hostStep .reset s = .next t ∧ t.byteAt a = s.cfg.fontHi.toList.getD (a - s.cfg.fontHiBase) 0#8)

/-! ## Rules of the whole machine -/

/-- A store is seen by the next fetch (R97): FX55 with I at the following instruction replaces that instruction. -/
def Obligations.StoreIsFetchedNext : Prop :=
  ∀ (x : Nibble) (s : State), s.status = .running → s.fetchInRange → s.wordAtPc = encode (.ldStore x) →
    s.i = s.pc + 2 → 1 ≤ x.toNat → s.i.toNat + x.toNat < 4096 →
    ∃ t, step s = .next t ∧ t.fetch = .ok t.wordAtPc ∧
      t.wordAtPc.toNat = (s.getV 0#4).toNat * 256 + (s.getV 1#4).toNat

/-- A step changes DT and ST only through FX15 and FX18, and never `key` or `prev_key` (R170; for `prev_key`
where KEYWAIT_CONSUMES has its default). -/
def Obligations.StepKeepsTimersAndKeys : Prop :=
  ∀ s t : State, step s = .next t →
    t.key = s.key ∧ (s.cfg.keywaitConsumes = false → t.prevKey = s.prevKey) ∧
    (t.dt ≠ s.dt → ∃ x, s.wordAtPc = encode (.ldDt x)) ∧ (t.st ≠ s.st → ∃ x, s.wordAtPc = encode (.ldSt x))

/-- Only FX33 and FX55 write memory, and only at the addresses R92 lists. -/
def Obligations.OnlyTheseWriteMemory : Prop :=
  ∀ (s t : State) (a : Nat), step s = .next t → t.byteAt a ≠ s.byteAt a →
    s.i.toNat ≤ a ∧ a < 4096 ∧ ∃ x,
      (s.wordAtPc = encode (.ldB x) ∧ a ≤ s.i.toNat + 2) ∨
      (s.wordAtPc = encode (.ldStore x) ∧ a ≤ s.i.toNat + x.toNat)

/-- Among the instructions only 00E0, DXYN, 00FE and 00FF write the framebuffer (R53), and only 00FE and 00FF
change the mode (R51). -/
def Obligations.OnlyTheseWriteTheDisplay : Prop :=
  ∀ s t : State, step s = .next t →
    (t.fb ≠ s.fb → s.wordAtPc ∈ [encode .cls, encode .low, encode .high] ∨ ∃ x y n, s.wordAtPc = encode (.drw x y n)) ∧
    (t.mode ≠ s.mode → s.wordAtPc ∈ [encode .low, encode .high])

/-- Only 2NNN pushes and only 00EE pops (R42). -/
def Obligations.OnlyTheseMoveTheStack : Prop :=
  ∀ s t : State, step s = .next t →
    (t.stack ≠ s.stack ∨ s.sp < t.sp → ∃ nnn, s.wordAtPc = encode (.call nnn)) ∧
    (t.sp < s.sp → s.wordAtPc = encode .ret)

/-- Among the instructions only ANNN, FX1E, FX29, FX30, FX55 and FX65 write I (R39), the last two only in
`Base`. -/
def Obligations.OnlyTheseWriteTheIndex : Prop :=
  ∀ s t : State, step s = .next t → t.i ≠ s.i →
    (∃ nnn, s.wordAtPc = encode (.ldI nnn)) ∨
    ∃ x, s.wordAtPc ∈ [encode (.addI x), encode (.ldF x), encode (.ldHf x)] ∨
      (s.cfg.variant = .base ∧ s.wordAtPc ∈ [encode (.ldStore x), encode (.ldLoad x)])

/-- VF is written by the instructions of R65 and by those that name it as their destination, no other. -/
def Obligations.OnlyTheseWriteVF : Prop :=
  ∀ (i : Instr) (s t : State), exec i s = .next t → t.getV 0xF#4 ≠ s.getV 0xF#4 →
    (∃ x y, i ∈ [.or x y, .and x y, .xor x y] ∧ (s.cfg.variant = .base ∨ x = 0xF#4)) ∨
    (∃ x y, i ∈ [.addReg x y, .sub x y, .subn x y, .shr x y, .shl x y]) ∨
    (∃ x y n, i = .drw x y n) ∨
    (∃ nn y, i ∈ [.ldImm 0xF#4 nn, .addImm 0xF#4 nn, .ldReg 0xF#4 y, .rnd 0xF#4 nn]) ∨
    i ∈ [.ldLoad 0xF#4, .ldK 0xF#4, .ldFromDt 0xF#4]

/-- No host operation and no instruction changes the configuration (R10, R61). -/
def Obligations.ConfigurationIsFixed : Prop :=
  ∀ (ops : List HostOp) (s t : State), hostRun ops s = .next t → t.cfg = s.cfg ∧ t.quirks = s.quirks
end

