-- ==== Sys2Proof/Laws/Decode.lean ====
section
/-! SUPPORT. The fields of an opcode as numbers, the fields of a packed word, and a word put together from
its fields (spec/30_encoding.md R121). -/

namespace Sys2Proof

/-! ### The fields as numbers -/

theorem opF_toNat (w : Word) : (opF w).toNat = w.toNat / 4096 := by
  have := w.isLt
  simp [opF, BitVec.extractLsb'_toNat, Nat.shiftRight_eq_div_pow]; omega

theorem opX_toNat (w : Word) : (opX w).toNat = w.toNat / 256 % 16 := by
  simp [opX, BitVec.extractLsb'_toNat, Nat.shiftRight_eq_div_pow]

theorem opY_toNat (w : Word) : (opY w).toNat = w.toNat / 16 % 16 := by
  simp [opY, BitVec.extractLsb'_toNat, Nat.shiftRight_eq_div_pow]

theorem opN_toNat (w : Word) : (opN w).toNat = w.toNat % 16 := by
  simp [opN, BitVec.extractLsb'_toNat]

theorem opNN_toNat (w : Word) : (opNN w).toNat = w.toNat % 256 := by
  simp [opNN, BitVec.extractLsb'_toNat]

theorem opNNN_toNat (w : Word) : (opNNN w).toNat = w.toNat % 4096 := by
  simp [opNNN, BitVec.extractLsb'_toNat]

/-! ### Packed words as numbers -/

theorem append_toNat {m n : Nat} (a : BitVec m) (b : BitVec n) :
    (a ++ b).toNat = a.toNat * 2 ^ n + b.toNat := by
  rw [BitVec.toNat_append, Nat.shiftLeft_eq, Nat.mul_comm, Nat.two_pow_add_eq_or_of_lt b.isLt]

theorem packXYN_toNat (f x y n : Nibble) :
    (packXYN f x y n).toNat = f.toNat * 4096 + x.toNat * 256 + y.toNat * 16 + n.toNat := by
  simp only [packXYN, append_toNat]; omega

theorem packXNN_toNat (f x : Nibble) (nn : Byte) :
    (packXNN f x nn).toNat = f.toNat * 4096 + x.toNat * 256 + nn.toNat := by
  simp only [packXNN, append_toNat]; omega

theorem packNNN_toNat (f : Nibble) (nnn : Addr) : (packNNN f nnn).toNat = f.toNat * 4096 + nnn.toNat := by
  simp only [packNNN, append_toNat]; omega

theorem opcodeOf_toNat (hi lo : Byte) : (opcodeOf hi lo).toNat = hi.toNat * 256 + lo.toNat := by
  simp only [opcodeOf, append_toNat]; omega

/-! ### The fields of a packed word -/

section
variable (f x y n : Nibble) (nn : Byte) (nnn : Addr)

@[simp] theorem opF_packXYN : opF (packXYN f x y n) = f := by
  apply BitVec.eq_of_toNat_eq; rw [opF_toNat, packXYN_toNat]; omega
@[simp] theorem opX_packXYN : opX (packXYN f x y n) = x := by
  apply BitVec.eq_of_toNat_eq; rw [opX_toNat, packXYN_toNat]; omega
@[simp] theorem opY_packXYN : opY (packXYN f x y n) = y := by
  apply BitVec.eq_of_toNat_eq; rw [opY_toNat, packXYN_toNat]; omega
@[simp] theorem opN_packXYN : opN (packXYN f x y n) = n := by
  apply BitVec.eq_of_toNat_eq; rw [opN_toNat, packXYN_toNat]; omega
@[simp] theorem opF_packXNN : opF (packXNN f x nn) = f := by
  apply BitVec.eq_of_toNat_eq; rw [opF_toNat, packXNN_toNat]; omega
@[simp] theorem opX_packXNN : opX (packXNN f x nn) = x := by
  apply BitVec.eq_of_toNat_eq; rw [opX_toNat, packXNN_toNat]; omega
@[simp] theorem opNN_packXNN : opNN (packXNN f x nn) = nn := by
  apply BitVec.eq_of_toNat_eq; rw [opNN_toNat, packXNN_toNat]; omega
@[simp] theorem opF_packNNN : opF (packNNN f nnn) = f := by
  apply BitVec.eq_of_toNat_eq; rw [opF_toNat, packNNN_toNat]; omega
@[simp] theorem opNNN_packNNN : opNNN (packNNN f nnn) = nnn := by
  apply BitVec.eq_of_toNat_eq; rw [opNNN_toNat, packNNN_toNat]; omega

end

/-! ### A word put together from its fields -/

theorem packXYN_fields (w : Word) : packXYN (opF w) (opX w) (opY w) (opN w) = w := by
  apply BitVec.eq_of_toNat_eq
  rw [packXYN_toNat, opF_toNat, opX_toNat, opY_toNat, opN_toNat]; omega

theorem packXNN_fields (w : Word) : packXNN (opF w) (opX w) (opNN w) = w := by
  apply BitVec.eq_of_toNat_eq
  rw [packXNN_toNat, opF_toNat, opX_toNat, opNN_toNat]; omega

theorem packNNN_fields (w : Word) : packNNN (opF w) (opNNN w) = w := by
  apply BitVec.eq_of_toNat_eq
  rw [packNNN_toNat, opF_toNat, opNNN_toNat]; omega

end Sys2Proof
end

