-- ==== Sys2Proof/Laws/State.lean ====
section
/-! SUPPORT. One lemma per field per update of the state, true by rfl, so that no later proof unfolds a
record update. -/

namespace Sys2Proof.Machine

variable (s : State)

/-! ### `setV` -/

@[simp] theorem State.setV_v (x : Nibble) (b : Byte) : (s.setV x b).v = s.v.set x.toNat b x.isLt := rfl
@[simp] theorem State.setV_pc (x : Nibble) (b : Byte) : (s.setV x b).pc = s.pc := rfl
@[simp] theorem State.setV_i (x : Nibble) (b : Byte) : (s.setV x b).i = s.i := rfl
@[simp] theorem State.setV_stack (x : Nibble) (b : Byte) : (s.setV x b).stack = s.stack := rfl
@[simp] theorem State.setV_sp (x : Nibble) (b : Byte) : (s.setV x b).sp = s.sp := rfl
@[simp] theorem State.setV_dt (x : Nibble) (b : Byte) : (s.setV x b).dt = s.dt := rfl
@[simp] theorem State.setV_st (x : Nibble) (b : Byte) : (s.setV x b).st = s.st := rfl
@[simp] theorem State.setV_mem (x : Nibble) (b : Byte) : (s.setV x b).mem = s.mem := rfl
@[simp] theorem State.setV_mode (x : Nibble) (b : Byte) : (s.setV x b).mode = s.mode := rfl
@[simp] theorem State.setV_fb (x : Nibble) (b : Byte) : (s.setV x b).fb = s.fb := rfl
@[simp] theorem State.setV_key (x : Nibble) (b : Byte) : (s.setV x b).key = s.key := rfl
@[simp] theorem State.setV_prevKey (x : Nibble) (b : Byte) : (s.setV x b).prevKey = s.prevKey := rfl
@[simp] theorem State.setV_status (x : Nibble) (b : Byte) : (s.setV x b).status = s.status := rfl
@[simp] theorem State.setV_fault (x : Nibble) (b : Byte) : (s.setV x b).fault = s.fault := rfl
@[simp] theorem State.setV_cfg (x : Nibble) (b : Byte) : (s.setV x b).cfg = s.cfg := rfl
@[simp] theorem State.setV_draws (x : Nibble) (b : Byte) : (s.setV x b).draws = s.draws := rfl
@[simp] theorem State.setV_events (x : Nibble) (b : Byte) : (s.setV x b).events = s.events := rfl

/-! ### `setPc` -/

@[simp] theorem State.setPc_v (w : Word) : (s.setPc w).v = s.v := rfl
@[simp] theorem State.setPc_pc (w : Word) : (s.setPc w).pc = w := rfl
@[simp] theorem State.setPc_i (w : Word) : (s.setPc w).i = s.i := rfl
@[simp] theorem State.setPc_stack (w : Word) : (s.setPc w).stack = s.stack := rfl
@[simp] theorem State.setPc_sp (w : Word) : (s.setPc w).sp = s.sp := rfl
@[simp] theorem State.setPc_dt (w : Word) : (s.setPc w).dt = s.dt := rfl
@[simp] theorem State.setPc_st (w : Word) : (s.setPc w).st = s.st := rfl
@[simp] theorem State.setPc_mem (w : Word) : (s.setPc w).mem = s.mem := rfl
@[simp] theorem State.setPc_mode (w : Word) : (s.setPc w).mode = s.mode := rfl
@[simp] theorem State.setPc_fb (w : Word) : (s.setPc w).fb = s.fb := rfl
@[simp] theorem State.setPc_key (w : Word) : (s.setPc w).key = s.key := rfl
@[simp] theorem State.setPc_prevKey (w : Word) : (s.setPc w).prevKey = s.prevKey := rfl
@[simp] theorem State.setPc_status (w : Word) : (s.setPc w).status = s.status := rfl
@[simp] theorem State.setPc_fault (w : Word) : (s.setPc w).fault = s.fault := rfl
@[simp] theorem State.setPc_cfg (w : Word) : (s.setPc w).cfg = s.cfg := rfl
@[simp] theorem State.setPc_draws (w : Word) : (s.setPc w).draws = s.draws := rfl
@[simp] theorem State.setPc_events (w : Word) : (s.setPc w).events = s.events := rfl

/-! ### `setI` -/

@[simp] theorem State.setI_v (w : Word) : (s.setI w).v = s.v := rfl
@[simp] theorem State.setI_pc (w : Word) : (s.setI w).pc = s.pc := rfl
@[simp] theorem State.setI_i (w : Word) : (s.setI w).i = w := rfl
@[simp] theorem State.setI_stack (w : Word) : (s.setI w).stack = s.stack := rfl
@[simp] theorem State.setI_sp (w : Word) : (s.setI w).sp = s.sp := rfl
@[simp] theorem State.setI_dt (w : Word) : (s.setI w).dt = s.dt := rfl
@[simp] theorem State.setI_st (w : Word) : (s.setI w).st = s.st := rfl
@[simp] theorem State.setI_mem (w : Word) : (s.setI w).mem = s.mem := rfl
@[simp] theorem State.setI_mode (w : Word) : (s.setI w).mode = s.mode := rfl
@[simp] theorem State.setI_fb (w : Word) : (s.setI w).fb = s.fb := rfl
@[simp] theorem State.setI_key (w : Word) : (s.setI w).key = s.key := rfl
@[simp] theorem State.setI_prevKey (w : Word) : (s.setI w).prevKey = s.prevKey := rfl
@[simp] theorem State.setI_status (w : Word) : (s.setI w).status = s.status := rfl
@[simp] theorem State.setI_fault (w : Word) : (s.setI w).fault = s.fault := rfl
@[simp] theorem State.setI_cfg (w : Word) : (s.setI w).cfg = s.cfg := rfl
@[simp] theorem State.setI_draws (w : Word) : (s.setI w).draws = s.draws := rfl
@[simp] theorem State.setI_events (w : Word) : (s.setI w).events = s.events := rfl

/-! ### `setDt` -/

@[simp] theorem State.setDt_v (b : Byte) : (s.setDt b).v = s.v := rfl
@[simp] theorem State.setDt_pc (b : Byte) : (s.setDt b).pc = s.pc := rfl
@[simp] theorem State.setDt_i (b : Byte) : (s.setDt b).i = s.i := rfl
@[simp] theorem State.setDt_stack (b : Byte) : (s.setDt b).stack = s.stack := rfl
@[simp] theorem State.setDt_sp (b : Byte) : (s.setDt b).sp = s.sp := rfl
@[simp] theorem State.setDt_dt (b : Byte) : (s.setDt b).dt = b := rfl
@[simp] theorem State.setDt_st (b : Byte) : (s.setDt b).st = s.st := rfl
@[simp] theorem State.setDt_mem (b : Byte) : (s.setDt b).mem = s.mem := rfl
@[simp] theorem State.setDt_mode (b : Byte) : (s.setDt b).mode = s.mode := rfl
@[simp] theorem State.setDt_fb (b : Byte) : (s.setDt b).fb = s.fb := rfl
@[simp] theorem State.setDt_key (b : Byte) : (s.setDt b).key = s.key := rfl
@[simp] theorem State.setDt_prevKey (b : Byte) : (s.setDt b).prevKey = s.prevKey := rfl
@[simp] theorem State.setDt_status (b : Byte) : (s.setDt b).status = s.status := rfl
@[simp] theorem State.setDt_fault (b : Byte) : (s.setDt b).fault = s.fault := rfl
@[simp] theorem State.setDt_cfg (b : Byte) : (s.setDt b).cfg = s.cfg := rfl
@[simp] theorem State.setDt_draws (b : Byte) : (s.setDt b).draws = s.draws := rfl
@[simp] theorem State.setDt_events (b : Byte) : (s.setDt b).events = s.events := rfl

/-! ### `setSt` -/

@[simp] theorem State.setSt_v (b : Byte) : (s.setSt b).v = s.v := rfl
@[simp] theorem State.setSt_pc (b : Byte) : (s.setSt b).pc = s.pc := rfl
@[simp] theorem State.setSt_i (b : Byte) : (s.setSt b).i = s.i := rfl
@[simp] theorem State.setSt_stack (b : Byte) : (s.setSt b).stack = s.stack := rfl
@[simp] theorem State.setSt_sp (b : Byte) : (s.setSt b).sp = s.sp := rfl
@[simp] theorem State.setSt_dt (b : Byte) : (s.setSt b).dt = s.dt := rfl
@[simp] theorem State.setSt_st (b : Byte) : (s.setSt b).st = b := rfl
@[simp] theorem State.setSt_mem (b : Byte) : (s.setSt b).mem = s.mem := rfl
@[simp] theorem State.setSt_mode (b : Byte) : (s.setSt b).mode = s.mode := rfl
@[simp] theorem State.setSt_fb (b : Byte) : (s.setSt b).fb = s.fb := rfl
@[simp] theorem State.setSt_key (b : Byte) : (s.setSt b).key = s.key := rfl
@[simp] theorem State.setSt_prevKey (b : Byte) : (s.setSt b).prevKey = s.prevKey := rfl
@[simp] theorem State.setSt_status (b : Byte) : (s.setSt b).status = s.status := rfl
@[simp] theorem State.setSt_fault (b : Byte) : (s.setSt b).fault = s.fault := rfl
@[simp] theorem State.setSt_cfg (b : Byte) : (s.setSt b).cfg = s.cfg := rfl
@[simp] theorem State.setSt_draws (b : Byte) : (s.setSt b).draws = s.draws := rfl
@[simp] theorem State.setSt_events (b : Byte) : (s.setSt b).events = s.events := rfl

/-! ### `setStatus` -/

@[simp] theorem State.setStatus_v (x : Status) : (s.setStatus x).v = s.v := rfl
@[simp] theorem State.setStatus_pc (x : Status) : (s.setStatus x).pc = s.pc := rfl
@[simp] theorem State.setStatus_i (x : Status) : (s.setStatus x).i = s.i := rfl
@[simp] theorem State.setStatus_stack (x : Status) : (s.setStatus x).stack = s.stack := rfl
@[simp] theorem State.setStatus_sp (x : Status) : (s.setStatus x).sp = s.sp := rfl
@[simp] theorem State.setStatus_dt (x : Status) : (s.setStatus x).dt = s.dt := rfl
@[simp] theorem State.setStatus_st (x : Status) : (s.setStatus x).st = s.st := rfl
@[simp] theorem State.setStatus_mem (x : Status) : (s.setStatus x).mem = s.mem := rfl
@[simp] theorem State.setStatus_mode (x : Status) : (s.setStatus x).mode = s.mode := rfl
@[simp] theorem State.setStatus_fb (x : Status) : (s.setStatus x).fb = s.fb := rfl
@[simp] theorem State.setStatus_key (x : Status) : (s.setStatus x).key = s.key := rfl
@[simp] theorem State.setStatus_prevKey (x : Status) : (s.setStatus x).prevKey = s.prevKey := rfl
@[simp] theorem State.setStatus_status (x : Status) : (s.setStatus x).status = x := rfl
@[simp] theorem State.setStatus_fault (x : Status) : (s.setStatus x).fault = s.fault := rfl
@[simp] theorem State.setStatus_cfg (x : Status) : (s.setStatus x).cfg = s.cfg := rfl
@[simp] theorem State.setStatus_draws (x : Status) : (s.setStatus x).draws = s.draws := rfl
@[simp] theorem State.setStatus_events (x : Status) : (s.setStatus x).events = s.events := rfl

/-! ### `setDisplay` -/

@[simp] theorem State.setDisplay_v (m : Mode) (cells : List Bool) : (s.setDisplay m cells).v = s.v := rfl
@[simp] theorem State.setDisplay_pc (m : Mode) (cells : List Bool) : (s.setDisplay m cells).pc = s.pc := rfl
@[simp] theorem State.setDisplay_i (m : Mode) (cells : List Bool) : (s.setDisplay m cells).i = s.i := rfl
@[simp] theorem State.setDisplay_stack (m : Mode) (cells : List Bool) : (s.setDisplay m cells).stack = s.stack := rfl
@[simp] theorem State.setDisplay_sp (m : Mode) (cells : List Bool) : (s.setDisplay m cells).sp = s.sp := rfl
@[simp] theorem State.setDisplay_dt (m : Mode) (cells : List Bool) : (s.setDisplay m cells).dt = s.dt := rfl
@[simp] theorem State.setDisplay_st (m : Mode) (cells : List Bool) : (s.setDisplay m cells).st = s.st := rfl
@[simp] theorem State.setDisplay_mem (m : Mode) (cells : List Bool) : (s.setDisplay m cells).mem = s.mem := rfl
@[simp] theorem State.setDisplay_mode (m : Mode) (cells : List Bool) : (s.setDisplay m cells).mode = m := rfl
@[simp] theorem State.setDisplay_fb (m : Mode) (cells : List Bool) : (s.setDisplay m cells).fb = cells := rfl
@[simp] theorem State.setDisplay_key (m : Mode) (cells : List Bool) : (s.setDisplay m cells).key = s.key := rfl
@[simp] theorem State.setDisplay_prevKey (m : Mode) (cells : List Bool) : (s.setDisplay m cells).prevKey = s.prevKey := rfl
@[simp] theorem State.setDisplay_status (m : Mode) (cells : List Bool) : (s.setDisplay m cells).status = s.status := rfl
@[simp] theorem State.setDisplay_fault (m : Mode) (cells : List Bool) : (s.setDisplay m cells).fault = s.fault := rfl
@[simp] theorem State.setDisplay_cfg (m : Mode) (cells : List Bool) : (s.setDisplay m cells).cfg = s.cfg := rfl
@[simp] theorem State.setDisplay_draws (m : Mode) (cells : List Bool) : (s.setDisplay m cells).draws = s.draws := rfl
@[simp] theorem State.setDisplay_events (m : Mode) (cells : List Bool) : (s.setDisplay m cells).events = s.events := rfl

/-! ### `setPrevKey` -/

@[simp] theorem State.setPrevKey_v (keys : Vector Bool 16) : (s.setPrevKey keys).v = s.v := rfl
@[simp] theorem State.setPrevKey_pc (keys : Vector Bool 16) : (s.setPrevKey keys).pc = s.pc := rfl
@[simp] theorem State.setPrevKey_i (keys : Vector Bool 16) : (s.setPrevKey keys).i = s.i := rfl
@[simp] theorem State.setPrevKey_stack (keys : Vector Bool 16) : (s.setPrevKey keys).stack = s.stack := rfl
@[simp] theorem State.setPrevKey_sp (keys : Vector Bool 16) : (s.setPrevKey keys).sp = s.sp := rfl
@[simp] theorem State.setPrevKey_dt (keys : Vector Bool 16) : (s.setPrevKey keys).dt = s.dt := rfl
@[simp] theorem State.setPrevKey_st (keys : Vector Bool 16) : (s.setPrevKey keys).st = s.st := rfl
@[simp] theorem State.setPrevKey_mem (keys : Vector Bool 16) : (s.setPrevKey keys).mem = s.mem := rfl
@[simp] theorem State.setPrevKey_mode (keys : Vector Bool 16) : (s.setPrevKey keys).mode = s.mode := rfl
@[simp] theorem State.setPrevKey_fb (keys : Vector Bool 16) : (s.setPrevKey keys).fb = s.fb := rfl
@[simp] theorem State.setPrevKey_key (keys : Vector Bool 16) : (s.setPrevKey keys).key = s.key := rfl
@[simp] theorem State.setPrevKey_prevKey (keys : Vector Bool 16) : (s.setPrevKey keys).prevKey = keys := rfl
@[simp] theorem State.setPrevKey_status (keys : Vector Bool 16) : (s.setPrevKey keys).status = s.status := rfl
@[simp] theorem State.setPrevKey_fault (keys : Vector Bool 16) : (s.setPrevKey keys).fault = s.fault := rfl
@[simp] theorem State.setPrevKey_cfg (keys : Vector Bool 16) : (s.setPrevKey keys).cfg = s.cfg := rfl
@[simp] theorem State.setPrevKey_draws (keys : Vector Bool 16) : (s.setPrevKey keys).draws = s.draws := rfl
@[simp] theorem State.setPrevKey_events (keys : Vector Bool 16) : (s.setPrevKey keys).events = s.events := rfl

/-! ### `emit` -/

@[simp] theorem State.emit_v (e : Event) : (s.emit e).v = s.v := rfl
@[simp] theorem State.emit_pc (e : Event) : (s.emit e).pc = s.pc := rfl
@[simp] theorem State.emit_i (e : Event) : (s.emit e).i = s.i := rfl
@[simp] theorem State.emit_stack (e : Event) : (s.emit e).stack = s.stack := rfl
@[simp] theorem State.emit_sp (e : Event) : (s.emit e).sp = s.sp := rfl
@[simp] theorem State.emit_dt (e : Event) : (s.emit e).dt = s.dt := rfl
@[simp] theorem State.emit_st (e : Event) : (s.emit e).st = s.st := rfl
@[simp] theorem State.emit_mem (e : Event) : (s.emit e).mem = s.mem := rfl
@[simp] theorem State.emit_mode (e : Event) : (s.emit e).mode = s.mode := rfl
@[simp] theorem State.emit_fb (e : Event) : (s.emit e).fb = s.fb := rfl
@[simp] theorem State.emit_key (e : Event) : (s.emit e).key = s.key := rfl
@[simp] theorem State.emit_prevKey (e : Event) : (s.emit e).prevKey = s.prevKey := rfl
@[simp] theorem State.emit_status (e : Event) : (s.emit e).status = s.status := rfl
@[simp] theorem State.emit_fault (e : Event) : (s.emit e).fault = s.fault := rfl
@[simp] theorem State.emit_cfg (e : Event) : (s.emit e).cfg = s.cfg := rfl
@[simp] theorem State.emit_draws (e : Event) : (s.emit e).draws = s.draws := rfl
@[simp] theorem State.emit_events (e : Event) : (s.emit e).events = s.events ++ [e] := rfl

/-! ### `nextDraw` -/

@[simp] theorem State.nextDraw_v : (s.nextDraw).v = s.v := rfl
@[simp] theorem State.nextDraw_pc : (s.nextDraw).pc = s.pc := rfl
@[simp] theorem State.nextDraw_i : (s.nextDraw).i = s.i := rfl
@[simp] theorem State.nextDraw_stack : (s.nextDraw).stack = s.stack := rfl
@[simp] theorem State.nextDraw_sp : (s.nextDraw).sp = s.sp := rfl
@[simp] theorem State.nextDraw_dt : (s.nextDraw).dt = s.dt := rfl
@[simp] theorem State.nextDraw_st : (s.nextDraw).st = s.st := rfl
@[simp] theorem State.nextDraw_mem : (s.nextDraw).mem = s.mem := rfl
@[simp] theorem State.nextDraw_mode : (s.nextDraw).mode = s.mode := rfl
@[simp] theorem State.nextDraw_fb : (s.nextDraw).fb = s.fb := rfl
@[simp] theorem State.nextDraw_key : (s.nextDraw).key = s.key := rfl
@[simp] theorem State.nextDraw_prevKey : (s.nextDraw).prevKey = s.prevKey := rfl
@[simp] theorem State.nextDraw_status : (s.nextDraw).status = s.status := rfl
@[simp] theorem State.nextDraw_fault : (s.nextDraw).fault = s.fault := rfl
@[simp] theorem State.nextDraw_cfg : (s.nextDraw).cfg = s.cfg := rfl
@[simp] theorem State.nextDraw_draws : (s.nextDraw).draws = s.draws + 1 := rfl
@[simp] theorem State.nextDraw_events : (s.nextDraw).events = s.events := rfl

/-! ### `advance` -/

@[simp] theorem State.advance_v : (s.advance).v = s.v := rfl
@[simp] theorem State.advance_pc : (s.advance).pc = s.pc + 2 := rfl
@[simp] theorem State.advance_i : (s.advance).i = s.i := rfl
@[simp] theorem State.advance_stack : (s.advance).stack = s.stack := rfl
@[simp] theorem State.advance_sp : (s.advance).sp = s.sp := rfl
@[simp] theorem State.advance_dt : (s.advance).dt = s.dt := rfl
@[simp] theorem State.advance_st : (s.advance).st = s.st := rfl
@[simp] theorem State.advance_mem : (s.advance).mem = s.mem := rfl
@[simp] theorem State.advance_mode : (s.advance).mode = s.mode := rfl
@[simp] theorem State.advance_fb : (s.advance).fb = s.fb := rfl
@[simp] theorem State.advance_key : (s.advance).key = s.key := rfl
@[simp] theorem State.advance_prevKey : (s.advance).prevKey = s.prevKey := rfl
@[simp] theorem State.advance_status : (s.advance).status = s.status := rfl
@[simp] theorem State.advance_fault : (s.advance).fault = s.fault := rfl
@[simp] theorem State.advance_cfg : (s.advance).cfg = s.cfg := rfl
@[simp] theorem State.advance_draws : (s.advance).draws = s.draws := rfl
@[simp] theorem State.advance_events : (s.advance).events = s.events := rfl

/-! ### `storeByte` -/

@[simp] theorem State.storeByte_v (a : Nat) (b : Byte) : (s.storeByte a b).v = s.v := rfl
@[simp] theorem State.storeByte_pc (a : Nat) (b : Byte) : (s.storeByte a b).pc = s.pc := rfl
@[simp] theorem State.storeByte_i (a : Nat) (b : Byte) : (s.storeByte a b).i = s.i := rfl
@[simp] theorem State.storeByte_stack (a : Nat) (b : Byte) : (s.storeByte a b).stack = s.stack := rfl
@[simp] theorem State.storeByte_sp (a : Nat) (b : Byte) : (s.storeByte a b).sp = s.sp := rfl
@[simp] theorem State.storeByte_dt (a : Nat) (b : Byte) : (s.storeByte a b).dt = s.dt := rfl
@[simp] theorem State.storeByte_st (a : Nat) (b : Byte) : (s.storeByte a b).st = s.st := rfl
@[simp] theorem State.storeByte_mem (a : Nat) (b : Byte) : (s.storeByte a b).mem = Memory.write s.cfg s.mem a b := rfl
@[simp] theorem State.storeByte_mode (a : Nat) (b : Byte) : (s.storeByte a b).mode = s.mode := rfl
@[simp] theorem State.storeByte_fb (a : Nat) (b : Byte) : (s.storeByte a b).fb = s.fb := rfl
@[simp] theorem State.storeByte_key (a : Nat) (b : Byte) : (s.storeByte a b).key = s.key := rfl
@[simp] theorem State.storeByte_prevKey (a : Nat) (b : Byte) : (s.storeByte a b).prevKey = s.prevKey := rfl
@[simp] theorem State.storeByte_status (a : Nat) (b : Byte) : (s.storeByte a b).status = s.status := rfl
@[simp] theorem State.storeByte_fault (a : Nat) (b : Byte) : (s.storeByte a b).fault = s.fault := rfl
@[simp] theorem State.storeByte_cfg (a : Nat) (b : Byte) : (s.storeByte a b).cfg = s.cfg := rfl
@[simp] theorem State.storeByte_draws (a : Nat) (b : Byte) : (s.storeByte a b).draws = s.draws := rfl
@[simp] theorem State.storeByte_events (a : Nat) (b : Byte) : (s.storeByte a b).events = s.events := rfl

/-! ### `takeFault` -/

@[simp] theorem State.takeFault_v (t : Trap) (op : Option Word) : (s.takeFault t op).v = s.v := rfl
@[simp] theorem State.takeFault_pc (t : Trap) (op : Option Word) : (s.takeFault t op).pc = s.pc := rfl
@[simp] theorem State.takeFault_i (t : Trap) (op : Option Word) : (s.takeFault t op).i = s.i := rfl
@[simp] theorem State.takeFault_stack (t : Trap) (op : Option Word) : (s.takeFault t op).stack = s.stack := rfl
@[simp] theorem State.takeFault_sp (t : Trap) (op : Option Word) : (s.takeFault t op).sp = s.sp := rfl
@[simp] theorem State.takeFault_dt (t : Trap) (op : Option Word) : (s.takeFault t op).dt = s.dt := rfl
@[simp] theorem State.takeFault_st (t : Trap) (op : Option Word) : (s.takeFault t op).st = s.st := rfl
@[simp] theorem State.takeFault_mem (t : Trap) (op : Option Word) : (s.takeFault t op).mem = s.mem := rfl
@[simp] theorem State.takeFault_mode (t : Trap) (op : Option Word) : (s.takeFault t op).mode = s.mode := rfl
@[simp] theorem State.takeFault_fb (t : Trap) (op : Option Word) : (s.takeFault t op).fb = s.fb := rfl
@[simp] theorem State.takeFault_key (t : Trap) (op : Option Word) : (s.takeFault t op).key = s.key := rfl
@[simp] theorem State.takeFault_prevKey (t : Trap) (op : Option Word) : (s.takeFault t op).prevKey = s.prevKey := rfl
@[simp] theorem State.takeFault_status (t : Trap) (op : Option Word) : (s.takeFault t op).status = .faulted := rfl
@[simp] theorem State.takeFault_fault (t : Trap) (op : Option Word) : (s.takeFault t op).fault = some ⟨t.cause, op, s.pc, t.info⟩ := rfl
@[simp] theorem State.takeFault_cfg (t : Trap) (op : Option Word) : (s.takeFault t op).cfg = s.cfg := rfl
@[simp] theorem State.takeFault_draws (t : Trap) (op : Option Word) : (s.takeFault t op).draws = s.draws := rfl
@[simp] theorem State.takeFault_events (t : Trap) (op : Option Word) : (s.takeFault t op).events = s.events := rfl

/-! ### `pressKey` -/

@[simp] theorem State.pressKey_v (k : Fin 16) (p : Bool) : (s.pressKey k p).v = s.v := rfl
@[simp] theorem State.pressKey_pc (k : Fin 16) (p : Bool) : (s.pressKey k p).pc = s.pc := rfl
@[simp] theorem State.pressKey_i (k : Fin 16) (p : Bool) : (s.pressKey k p).i = s.i := rfl
@[simp] theorem State.pressKey_stack (k : Fin 16) (p : Bool) : (s.pressKey k p).stack = s.stack := rfl
@[simp] theorem State.pressKey_sp (k : Fin 16) (p : Bool) : (s.pressKey k p).sp = s.sp := rfl
@[simp] theorem State.pressKey_dt (k : Fin 16) (p : Bool) : (s.pressKey k p).dt = s.dt := rfl
@[simp] theorem State.pressKey_st (k : Fin 16) (p : Bool) : (s.pressKey k p).st = s.st := rfl
@[simp] theorem State.pressKey_mem (k : Fin 16) (p : Bool) : (s.pressKey k p).mem = s.mem := rfl
@[simp] theorem State.pressKey_mode (k : Fin 16) (p : Bool) : (s.pressKey k p).mode = s.mode := rfl
@[simp] theorem State.pressKey_fb (k : Fin 16) (p : Bool) : (s.pressKey k p).fb = s.fb := rfl
@[simp] theorem State.pressKey_key (k : Fin 16) (p : Bool) : (s.pressKey k p).key = s.key.set k.val p k.isLt := rfl
@[simp] theorem State.pressKey_prevKey (k : Fin 16) (p : Bool) : (s.pressKey k p).prevKey = s.edgeHistory k := rfl
@[simp] theorem State.pressKey_status (k : Fin 16) (p : Bool) : (s.pressKey k p).status = s.status := rfl
@[simp] theorem State.pressKey_fault (k : Fin 16) (p : Bool) : (s.pressKey k p).fault = s.fault := rfl
@[simp] theorem State.pressKey_cfg (k : Fin 16) (p : Bool) : (s.pressKey k p).cfg = s.cfg := rfl
@[simp] theorem State.pressKey_draws (k : Fin 16) (p : Bool) : (s.pressKey k p).draws = s.draws := rfl
@[simp] theorem State.pressKey_events (k : Fin 16) (p : Bool) : (s.pressKey k p).events = s.events := rfl

/-! ### The reset of a configuration, and of a running machine -/

@[simp] theorem State.construct_v (c : Config) : (State.construct c).v = Vector.replicate 16 0#8 := rfl
@[simp] theorem State.construct_pc (c : Config) : (State.construct c).pc = 0x200#16 := rfl
@[simp] theorem State.construct_i (c : Config) : (State.construct c).i = 0#16 := rfl
@[simp] theorem State.construct_stack (c : Config) : (State.construct c).stack = Vector.replicate 16 0#16 := rfl
@[simp] theorem State.construct_sp (c : Config) : (State.construct c).sp = 0 := rfl
@[simp] theorem State.construct_dt (c : Config) : (State.construct c).dt = 0#8 := rfl
@[simp] theorem State.construct_st (c : Config) : (State.construct c).st = 0#8 := rfl
@[simp] theorem State.construct_mem (c : Config) : (State.construct c).mem = [] := rfl
@[simp] theorem State.construct_mode (c : Config) : (State.construct c).mode = .low := rfl
@[simp] theorem State.construct_fb (c : Config) : (State.construct c).fb = List.replicate 2048 false := rfl
@[simp] theorem State.construct_key (c : Config) : (State.construct c).key = Vector.replicate 16 false := rfl
@[simp] theorem State.construct_prevKey (c : Config) : (State.construct c).prevKey = Vector.replicate 16 false := rfl
@[simp] theorem State.construct_status (c : Config) : (State.construct c).status = .running := rfl
@[simp] theorem State.construct_fault (c : Config) : (State.construct c).fault = none := rfl
@[simp] theorem State.construct_cfg (c : Config) : (State.construct c).cfg = c := rfl
@[simp] theorem State.construct_draws (c : Config) : (State.construct c).draws = 0 := rfl
@[simp] theorem State.construct_events (c : Config) : (State.construct c).events = [] := rfl

@[simp] theorem State.hostReset_v : s.hostReset.v = Vector.replicate 16 0#8 := rfl
@[simp] theorem State.hostReset_pc : s.hostReset.pc = 0x200#16 := rfl
@[simp] theorem State.hostReset_i : s.hostReset.i = 0#16 := rfl
@[simp] theorem State.hostReset_stack : s.hostReset.stack = Vector.replicate 16 0#16 := rfl
@[simp] theorem State.hostReset_sp : s.hostReset.sp = 0 := rfl
@[simp] theorem State.hostReset_dt : s.hostReset.dt = 0#8 := rfl
@[simp] theorem State.hostReset_st : s.hostReset.st = 0#8 := rfl
@[simp] theorem State.hostReset_mem : s.hostReset.mem = [] := rfl
@[simp] theorem State.hostReset_mode : s.hostReset.mode = .low := rfl
@[simp] theorem State.hostReset_fb : s.hostReset.fb = List.replicate 2048 false := rfl
@[simp] theorem State.hostReset_key : s.hostReset.key = Vector.replicate 16 false := rfl
@[simp] theorem State.hostReset_prevKey : s.hostReset.prevKey = Vector.replicate 16 false := rfl
@[simp] theorem State.hostReset_status : s.hostReset.status = .running := rfl
@[simp] theorem State.hostReset_fault : s.hostReset.fault = none := rfl
@[simp] theorem State.hostReset_cfg : s.hostReset.cfg = s.cfg := rfl
@[simp] theorem State.hostReset_draws : s.hostReset.draws = s.draws := rfl
@[simp] theorem State.hostReset_events : s.hostReset.events = s.events := rfl

/-! ### The quirks follow the configuration -/

theorem State.quirks_congr {s t : State} (h : s.cfg = t.cfg) : s.quirks = t.quirks := by
  simp [State.quirks, h]

end Sys2Proof.Machine
end

