-- ==== Sys2Proof/Laws/Registers.lean ====
section
/-! SUPPORT. What reading a V register gives after each update (spec/10_state.md R31, R32). -/

namespace Sys2Proof.Machine

variable (s : State)

theorem State.getV_setV (x y : Nibble) (b : Byte) :
    (s.setV x b).getV y = if y = x then b else s.getV y := by
  unfold State.getV State.setV
  by_cases h : y = x
  · subst h; simp
  · have h' : x.toNat ≠ y.toNat := fun e => h (BitVec.eq_of_toNat_eq e.symm)
    simp [h, h']

@[simp] theorem State.getV_setV_same (x : Nibble) (b : Byte) : (s.setV x b).getV x = b := by
  simp [State.getV_setV]

theorem State.getV_setV_ne {x y : Nibble} (h : y ≠ x) (b : Byte) : (s.setV x b).getV y = s.getV y := by
  simp [State.getV_setV, h]

@[simp] theorem State.getV_setPc (w : Word) (x : Nibble) : (s.setPc w).getV x = s.getV x := rfl
@[simp] theorem State.getV_setI (w : Word) (x : Nibble) : (s.setI w).getV x = s.getV x := rfl
@[simp] theorem State.getV_setDt (b : Byte) (x : Nibble) : (s.setDt b).getV x = s.getV x := rfl
@[simp] theorem State.getV_setSt (b : Byte) (x : Nibble) : (s.setSt b).getV x = s.getV x := rfl
@[simp] theorem State.getV_setStatus (r : Status) (x : Nibble) : (s.setStatus r).getV x = s.getV x := rfl
@[simp] theorem State.getV_setDisplay (m : Mode) (c : List Bool) (x : Nibble) :
    (s.setDisplay m c).getV x = s.getV x := rfl
@[simp] theorem State.getV_setPrevKey (k : Vector Bool 16) (x : Nibble) :
    (s.setPrevKey k).getV x = s.getV x := rfl
@[simp] theorem State.getV_emit (e : Event) (x : Nibble) : (s.emit e).getV x = s.getV x := rfl
@[simp] theorem State.getV_nextDraw (x : Nibble) : s.nextDraw.getV x = s.getV x := rfl
@[simp] theorem State.getV_advance (x : Nibble) : s.advance.getV x = s.getV x := rfl
@[simp] theorem State.getV_storeByte (a : Nat) (b : Byte) (x : Nibble) :
    (s.storeByte a b).getV x = s.getV x := rfl
@[simp] theorem State.getV_takeFault (t : Trap) (op : Option Word) (x : Nibble) :
    (s.takeFault t op).getV x = s.getV x := rfl

@[simp] theorem State.getV_construct (c : Config) (x : Nibble) : (State.construct c).getV x = 0#8 := by
  simp [State.getV]

/-- Two states with the same register reads have the same registers. -/
theorem State.v_ext {s t : State} (h : ∀ x, s.getV x = t.getV x) : s.v = t.v := by
  apply Vector.ext
  intro k hk
  simpa [State.getV, Nat.mod_eq_of_lt hk] using h (BitVec.ofNat 4 k)

end Sys2Proof.Machine
end

