-- ==== Sys2Proof/Laws/Memory.lean ====
section
/-! SUPPORT. The laws of memory (spec/20_memory.md R80 to R83, R95): reading after a write, the canonical
form, and what a sequence of byte accesses answers. -/

namespace Sys2Proof.Machine

/-! ### One byte -/

theorem Memory.lookup_put (a k : Nat) (v : Byte) (m : Memory) :
    Memory.lookup k (Memory.put a v m) = if k = a then some v else Memory.lookup k m := by
  induction m with
  | nil => simp [Memory.put, Memory.lookup]
  | cons p m ih =>
    obtain ⟨b, w⟩ := p
    unfold Memory.put
    split
    · simp [Memory.lookup]
    · split
      · subst_vars; by_cases h : k = b <;> simp [Memory.lookup, h]
      · by_cases h : k = b
        · subst h; simp_all [Memory.lookup, eq_comm]
        · simp [Memory.lookup, h, ih]

theorem Memory.lookup_drop (a k : Nat) (m : Memory) :
    Memory.lookup k (Memory.drop a m) = if k = a then none else Memory.lookup k m := by
  induction m with
  | nil => simp [Memory.drop, Memory.lookup]
  | cons p m ih =>
    obtain ⟨b, w⟩ := p
    unfold Memory.drop
    split
    · subst_vars; rw [ih]; by_cases h : k = b <;> simp [Memory.lookup, h]
    · by_cases h : k = b
      · subst h; simp_all [Memory.lookup, eq_comm]
      · simp [Memory.lookup, h, ih]

/-- A read after a write: the byte written at that address, the old byte at every other (R82, R95). -/
theorem Memory.read_write (c : Config) (m : Memory) (a k : Nat) (v : Byte) :
    Memory.read c (Memory.write c m a v) k = if k = a then v else Memory.read c m k := by
  unfold Memory.read Memory.write
  split
  · by_cases h : k = a <;> simp_all [Memory.lookup_drop]
  · by_cases h : k = a <;> simp [h, Memory.lookup_put]

/-- Memory with nothing listed reads as reset leaves it (R87). -/
@[simp] theorem Memory.read_nil (c : Config) (a : Nat) : Memory.read c [] a = resetByte c a := rfl

theorem State.byteAt_storeByte (s : State) (a k : Nat) (v : Byte) :
    (s.storeByte a v).byteAt k = if k = a then v else s.byteAt k :=
  Memory.read_write s.cfg s.mem a k v

/-! ### The canonical form -/

theorem Memory.mem_put {p : Host.Cell} {a : Nat} {v : Byte} {m : Memory}
    (h : p ∈ Memory.put a v m) : p = (a, v) ∨ p ∈ m := by
  induction m with
  | nil => simpa [Memory.put] using h
  | cons q m ih =>
    obtain ⟨b, w⟩ := q
    unfold Memory.put at h
    split at h
    · simpa using h
    · split at h
      · simp only [List.mem_cons] at h ⊢; tauto
      · simp only [List.mem_cons] at h ⊢
        rcases h with h | h
        · tauto
        · rcases ih h with h | h <;> tauto

theorem Memory.mem_drop {p : Host.Cell} {a : Nat} {m : Memory} (h : p ∈ Memory.drop a m) : p ∈ m := by
  induction m with
  | nil => simp [Memory.drop] at h
  | cons q m ih =>
    obtain ⟨b, w⟩ := q
    unfold Memory.drop at h
    split at h
    · exact List.mem_cons_of_mem _ (ih h)
    · rcases List.mem_cons.1 h with h | h
      · exact h ▸ List.mem_cons_self
      · exact List.mem_cons_of_mem _ (ih h)

theorem Memory.rising_put (a : Nat) (v : Byte) {m : Memory} (h : m.Pairwise fun p q => p.1 < q.1) :
    (Memory.put a v m).Pairwise fun p q => p.1 < q.1 := by
  induction m with
  | nil => simp [Memory.put]
  | cons q m ih =>
    obtain ⟨b, w⟩ := q
    obtain ⟨hb, hm⟩ := List.pairwise_cons.1 h
    unfold Memory.put
    split
    · refine List.pairwise_cons.2 ⟨fun p hp => ?_, h⟩
      rcases List.mem_cons.1 hp with rfl | hp
      · assumption
      · have := hb p hp; simp only at *; omega
    · split
      · subst_vars; exact List.pairwise_cons.2 ⟨hb, hm⟩
      · refine List.pairwise_cons.2 ⟨fun p hp => ?_, ih hm⟩
        rcases Memory.mem_put hp with rfl | hp
        · simp only; omega
        · exact hb p hp

theorem Memory.rising_drop (a : Nat) {m : Memory} (h : m.Pairwise fun p q => p.1 < q.1) :
    (Memory.drop a m).Pairwise fun p q => p.1 < q.1 := by
  induction m with
  | nil => simp [Memory.drop]
  | cons q m ih =>
    obtain ⟨b, w⟩ := q
    obtain ⟨hb, hm⟩ := List.pairwise_cons.1 h
    unfold Memory.drop
    split
    · exact ih hm
    · exact List.pairwise_cons.2 ⟨fun p hp => hb p (Memory.mem_drop hp), ih hm⟩

/-- Every store inside the address space keeps the canonical form. -/
theorem Memory.wf_write {c : Config} {m : Memory} {a : Nat} (v : Byte) (h : Memory.wf c m) (ha : a < memSize) :
    Memory.wf c (Memory.write c m a v) := by
  unfold Memory.write
  split
  · exact ⟨Memory.rising_drop a h.1, fun p hp => h.2 p (Memory.mem_drop hp)⟩
  · refine ⟨Memory.rising_put a v h.1, fun p hp => ?_⟩
    rcases Memory.mem_put hp with rfl | hp
    · exact ⟨ha, by assumption⟩
    · exact h.2 p hp

theorem Memory.wf_nil (c : Config) : Memory.wf c [] := by simp [Memory.wf]

theorem State.wf_storeByte {s : State} {a : Nat} (v : Byte) (h : Memory.wf s.cfg s.mem) (ha : a < memSize) :
    Memory.wf (s.storeByte a v).cfg (s.storeByte a v).mem :=
  Memory.wf_write v h ha

/-! ### Several bytes -/

theorem State.byteAt_storeBytes (bs : List Byte) : ∀ (s : State) (a k : Nat),
    (s.storeBytes a bs).byteAt k = if a ≤ k ∧ k < a + bs.length then bs.getD (k - a) 0#8 else s.byteAt k := by
  induction bs with
  | nil => intro s a k; simp [State.storeBytes]
  | cons b bs ih =>
    intro s a k
    rw [State.storeBytes, ih]
    by_cases h1 : k = a
    · subst h1; simp [State.byteAt_storeByte]
    · rw [State.byteAt_storeByte, if_neg h1]
      by_cases h2 : a ≤ k ∧ k < a + (b :: bs).length
      · have h3 : a + 1 ≤ k ∧ k < a + 1 + bs.length := by simp at h2; omega
        obtain ⟨j, rfl⟩ : ∃ j, k = a + 1 + j := ⟨k - (a + 1), by omega⟩
        rw [if_pos h3, if_pos h2, show a + 1 + j - a = j + 1 by omega, show a + 1 + j - (a + 1) = j by omega]
        simp
      · have h3 : ¬ (a + 1 ≤ k ∧ k < a + 1 + bs.length) := by simp at h2; omega
        rw [if_neg h3, if_neg h2]

theorem State.wf_storeBytes (bs : List Byte) : ∀ (s : State) (a : Nat), Memory.wf s.cfg s.mem →
    a + bs.length ≤ memSize → Memory.wf (s.storeBytes a bs).cfg (s.storeBytes a bs).mem := by
  induction bs with
  | nil => intro s a h _; exact h
  | cons b bs ih =>
    intro s a h hl
    simp only [List.length_cons] at hl
    exact ih _ _ (State.wf_storeByte b h (by omega)) (by omega)

/-- Storing bytes changes memory alone. -/
theorem State.storeBytes_eq (bs : List Byte) : ∀ (s : State) (a : Nat),
    s.storeBytes a bs = { s with mem := (s.storeBytes a bs).mem } := by
  induction bs with
  | nil => intro s a; rfl
  | cons b bs ih => intro s a; exact ih _ _

/-- What a sequence of byte writes answers: the bytes stored, or the first address out of range (R376). -/
theorem State.memWrites_eq (bs : List Byte) : ∀ (s : State) (a : Nat),
    s.memWrites a bs = if bs = [] ∨ a + bs.length ≤ memSize then .ok (s.storeBytes a bs)
      else .error ⟨.memoryBounds, some (max a memSize)⟩ := by
  induction bs with
  | nil => intro s a; simp [State.memWrites, State.storeBytes]
  | cons b bs ih =>
    intro s a
    unfold State.memWrites State.memWrite
    by_cases h : a < memSize
    · simp only [h, if_true]
      show (s.storeByte a b).memWrites (a + 1) bs = _
      rw [ih]
      by_cases h2 : a + 1 + bs.length ≤ memSize
      · have h3 : a + (b :: bs).length ≤ memSize := by simp at *; omega
        rw [if_pos (Or.inr h2), if_pos (Or.inr h3)]; rfl
      · have h3 : ¬ (a + (b :: bs).length ≤ memSize) := by simp at *; omega
        have h4 : bs ≠ [] := by rintro rfl; simp at *; omega
        have h5 : max (a + 1) memSize = max a memSize := by omega
        rw [if_neg (by simp only [h4, false_or]; exact h2), if_neg (by simp only [List.cons_ne_nil, false_or]; exact h3), h5]
    · have h3 : ¬ (a + (b :: bs).length ≤ memSize) := by simp at *; omega
      have h5 : max a memSize = a := by omega
      simp only [h, if_false, List.cons_ne_nil, false_or, h3, h5]; rfl

/-- What a sequence of byte reads answers: every byte, or the first address out of range (R376). -/
theorem State.memReads_eq (s : State) (as : List Nat) :
    s.memReads as = match as.find? (fun a => memSize ≤ a) with
      | none => .ok (as.map s.byteAt)
      | some a => .error ⟨.memoryBounds, some a⟩ := by
  induction as with
  | nil => rfl
  | cons a as ih =>
    unfold State.memReads State.memRead
    by_cases h : a < memSize
    · have h' : ¬ memSize ≤ a := by omega
      simp only [h, if_true, List.find?_cons, h', decide_false]
      rw [ih]
      cases as.find? (fun a => decide (memSize ≤ a)) <;> rfl
    · have h' : memSize ≤ a := by omega
      simp only [h, if_false, List.find?_cons, h', decide_true]; rfl

/-- All addresses in range: the reads answer their bytes. -/
theorem State.memReads_ok (s : State) {as : List Nat} (h : ∀ a ∈ as, a < memSize) :
    s.memReads as = .ok (as.map s.byteAt) := by
  have : as.find? (fun a => decide (memSize ≤ a)) = none := by
    simp only [List.find?_eq_none, decide_eq_true_eq]; intro a ha; have := h a ha; omega
  rw [State.memReads_eq, this]

end Sys2Proof.Machine
end

