-- ==== Sys2Proof/Laws/Ops.lean ====
section
/-! SUPPORT. What each shared operation can do: running an instruction, fetching, the stack, the bulk
register load, flags. Later proofs cite these and do not unfold the operations. -/

namespace Sys2Proof.Machine

/-! ### Running an instruction (R162, R165, R166) -/

theorem runInstr_ok {i : Instr} {s t : State} {body : State → Except Trap State}
    (h : body s.advance = .ok t) : runInstr i s body = .next t := by
  simp [runInstr, h]

theorem runInstr_error {i : Instr} {s : State} {e : Trap} {body : State → Except Trap State}
    (h : body s.advance = .error e) : runInstr i s body = .next (s.takeFault e (some (encode i))) := by
  simp [runInstr, h]

/-- An instruction ends in one of two ways: its body's writes, or fault entry from the state it began in. -/
theorem runInstr_cases {i : Instr} {s t : State} {body : State → Except Trap State}
    (h : runInstr i s body = .next t) :
    body s.advance = .ok t ∨ ∃ e, body s.advance = .error e ∧ t = s.takeFault e (some (encode i)) := by
  unfold runInstr at h
  split at h
  · exact .inl (by simp_all)
  · exact .inr ⟨_, ‹_›, by simpa using h.symm⟩

/-- An instruction always answers a next state. -/
theorem runInstr_next (i : Instr) (s : State) (body : State → Except Trap State) :
    ∃ t, runInstr i s body = .next t := by
  unfold runInstr; split <;> exact ⟨_, rfl⟩

theorem requireExtended_ok {s : State} (h : s.quirks.extendedOpcodes = true) : s.requireExtended = .ok s := by
  simp [State.requireExtended, h]

theorem requireExtended_error {s : State} (h : s.quirks.extendedOpcodes = false) :
    s.requireExtended = .error ⟨.fatalDecode, none⟩ := by
  simp [State.requireExtended, h]

@[simp] theorem State.quirks_advance (s : State) : s.advance.quirks = s.quirks := rfl

/-! ### Fetch (R161) -/

theorem State.fetch_ok {s : State} (h : s.pc.toNat + 1 < memSize) :
    s.fetch = .ok (opcodeOf (s.byteAt s.pc.toNat) (s.byteAt (s.pc.toNat + 1))) := by
  have h0 : s.pc.toNat < memSize := by omega
  simp only [State.fetch, State.memRead, h, h0, if_true]; rfl

theorem State.fetch_error {s : State} (h : ¬ s.pc.toNat + 1 < memSize) :
    s.fetch = .error ⟨.memoryBounds, some (max s.pc.toNat memSize)⟩ := by
  by_cases h0 : s.pc.toNat < memSize
  · have h1 : max s.pc.toNat memSize = s.pc.toNat + 1 := by omega
    simp only [State.fetch, State.memRead, h, h0, if_true, if_false, h1]; rfl
  · have h1 : max s.pc.toNat memSize = s.pc.toNat := by omega
    simp only [State.fetch, State.memRead, h0, if_false, h1]; rfl

/-! ### The stack (R41) -/

theorem State.push_ok {s : State} (w : Word) (h : s.sp.val < 16) :
    s.push w = .ok { s with stack := s.stack.set s.sp.val w h, sp := ⟨s.sp.val + 1, by omega⟩ } := by
  simp [State.push, h]

theorem State.push_error {s : State} (w : Word) (h : ¬ s.sp.val < 16) :
    s.push w = .error ⟨.stackOverflow, none⟩ := by
  simp [State.push, h]

theorem State.pop_ok {s : State} (h : 0 < s.sp.val) :
    s.pop = .ok (s.stack[s.sp.val - 1]'(by omega), { s with sp := ⟨s.sp.val - 1, by omega⟩ }) := by
  simp [State.pop, h]

theorem State.pop_error {s : State} (h : ¬ 0 < s.sp.val) : s.pop = .error ⟨.stackUnderflow, none⟩ := by
  simp [State.pop, h]

/-! ### Keys (R323, R377) -/

theorem State.keyHeld_ok {s : State} {b : Byte} (h : b.toNat < 16) : s.keyHeld b = .ok s.key[b.toNat] := by
  simp [State.keyHeld, h]

theorem State.keyHeld_error {s : State} {b : Byte} (h : ¬ b.toNat < 16) :
    s.keyHeld b = .error ⟨.keyIndex, some b.toNat⟩ := by
  simp [State.keyHeld, h]

theorem State.mem_releaseEdges (s : State) (k : Nibble) : k ∈ s.releaseEdges ↔ s.releaseEdge k = true := by
  simp only [State.releaseEdges, List.mem_filter, List.mem_map, List.mem_range, and_iff_right_iff_imp]
  intro _
  exact ⟨k.toNat, k.isLt, by simp⟩

/-- The keys with an edge are listed in rising order (R325: "scans all 16 keys"). -/
theorem State.releaseEdges_rising (s : State) : s.releaseEdges.Pairwise (fun a b => a.toNat < b.toNat) := by
  apply List.Pairwise.filter
  decide

/-! ### Skips and the index (R180, R265) -/

theorem State.skipIf_eq (s : State) (b : Bool) : s.skipIf b = s.setPc (if b then s.pc + 2 else s.pc) := by
  cases b <;> rfl

theorem State.bulkIndex_eq (s : State) (x : Nibble) :
    s.bulkIndex x = s.setI (if s.quirks.memoryIncrementOnBulkTransfer then s.i + x.setWidth 16 + 1#16 else s.i) := by
  unfold State.bulkIndex; split <;> rfl

/-! ### The bulk register load (R266) -/

theorem State.getV_loadRegs (bs : List Byte) : ∀ (s : State) (k : Nat) (x : Nibble), k + bs.length ≤ 16 →
    (s.loadRegs k bs).getV x = if k ≤ x.toNat ∧ x.toNat < k + bs.length then bs.getD (x.toNat - k) 0#8 else s.getV x := by
  induction bs with
  | nil => intro s k x _; simp [State.loadRegs]
  | cons b bs ih =>
    intro s k x h
    simp only [List.length_cons] at h
    rw [State.loadRegs, ih _ _ _ (by omega), State.getV_setV]
    by_cases h1 : x.toNat = k
    · have hx : x = BitVec.ofNat 4 k := by rw [← h1]; simp
      rw [if_neg (by omega), if_pos hx, if_pos (by simp; omega)]
      simp [h1]
    · have hx : x ≠ BitVec.ofNat 4 k := by
        rintro rfl; apply h1; simp; omega
      rw [if_neg hx]
      by_cases h2 : k + 1 ≤ x.toNat ∧ x.toNat < k + 1 + bs.length
      · rw [if_pos h2, if_pos (by simp; omega), show x.toNat - k = (x.toNat - (k + 1)) + 1 by omega]
        simp
      · rw [if_neg h2, if_neg (by simp; omega)]

/-- The bulk register load changes registers alone. -/
theorem State.loadRegs_eq (bs : List Byte) : ∀ (s : State) (k : Nat),
    s.loadRegs k bs = { s with v := (s.loadRegs k bs).v } := by
  induction bs with
  | nil => intro s k; rfl
  | cons b bs ih => intro s k; exact ih _ _

/-! ### Flags (R32, R65) -/

theorem State.getV_setResultFlag (s : State) (x y : Nibble) (r : Byte) (b : Bool) :
    (s.setResultFlag x r b).getV y = if y = vf then flagByte b else if y = x then r else s.getV y := by
  simp [State.setResultFlag, State.setFlag, State.getV_setV]

theorem flagByte_toNat (b : Bool) : (flagByte b).toNat = if b then 1 else 0 := by
  cases b <;> rfl

end Sys2Proof.Machine
end

