-- ==== Sys2Proof/Laws/Display.lean ====
section
/-! SUPPORT. What toggling a list of cells does (spec/44_display.md R291, R295). -/

namespace Sys2Proof.Machine

@[simp] theorem toggleCells_length (ks : List Nat) : ∀ fb, (toggleCells ks fb).1.length = fb.length := by
  induction ks with
  | nil => intro fb; rfl
  | cons k ks ih => intro fb; simp [toggleCells, ih]

/-- Toggling distinct cells inverts exactly those that are in the framebuffer. -/
theorem toggleCells_getD (ks : List Nat) : ∀ (fb : List Bool) (j : Nat), ks.Nodup → j < fb.length →
    (toggleCells ks fb).1.getD j false = (if j ∈ ks then !fb.getD j false else fb.getD j false) := by
  induction ks with
  | nil => intro fb j _ _; simp [toggleCells]
  | cons k ks ih =>
    intro fb j hn hj
    obtain ⟨hk, hn⟩ := List.nodup_cons.1 hn
    simp only [toggleCells]
    rw [ih _ j hn (by simpa using hj)]
    by_cases h : j = k
    · subst h; simp [hk, List.getD_eq_getElem?_getD, hj]
    · have h' : k ≠ j := Ne.symm h
      simp [h, h', List.getD_eq_getElem?_getD]

/-- Some toggled cell was set before, exactly when some listed cell is set to begin with. -/
theorem toggleCells_hit (ks : List Nat) : ∀ (fb : List Bool), ks.Nodup →
    ((toggleCells ks fb).2 = true ↔ ∃ k ∈ ks, fb.getD k false = true) := by
  induction ks with
  | nil => intro fb _; simp [toggleCells]
  | cons k ks ih =>
    intro fb hn
    obtain ⟨hk, hn⟩ := List.nodup_cons.1 hn
    simp only [toggleCells, Bool.or_eq_true, ih _ hn, List.mem_cons, exists_eq_or_imp]
    refine or_congr Iff.rfl (exists_congr fun j => and_congr_right fun hj => ?_)
    have h' : k ≠ j := by rintro rfl; exact hk hj
    simp [h', List.getD_eq_getElem?_getD]

end Sys2Proof.Machine
end

