-- ==== Sys2Proof/Laws/Frames.lean ====
section
/-! SUPPORT. How frames compose, and how a body's answer gives an instruction's completion or fault. -/

namespace Sys2Proof.Machine

theorem StatePart.same_rfl (s : State) (p : StatePart) : p.same s s := by cases p <;> rfl

theorem StatePart.same_trans {s t u : State} {p : StatePart} (h : p.same s t) (h' : p.same t u) : p.same s u := by
  cases p <;> simp only [StatePart.same] at * <;> exact h'.trans h

theorem OnlyChanges.rfl {s : State} {ps : List StatePart} : OnlyChanges s s ps := fun p _ => StatePart.same_rfl s p

theorem OnlyChanges.trans {s t u : State} {ps : List StatePart} (h : OnlyChanges s t ps) (h' : OnlyChanges t u ps) :
    OnlyChanges s u ps := fun p hp => StatePart.same_trans (h p hp) (h' p hp)

theorem OnlyChanges.mono {s t : State} {ps qs : List StatePart} (h : OnlyChanges s t ps) (hq : ∀ p ∈ ps, p ∈ qs) :
    OnlyChanges s t qs := fun p hp => h p fun hp' => hp (hq p hp')

/-! ### One update changes one part -/

theorem onlyChanges_setV (s : State) (x : Nibble) (b : Byte) : OnlyChanges s (s.setV x b) [.reg x] := by
  intro p hp
  cases p with
  | reg y => exact State.getV_setV_ne s (by simpa using hp) b
  | _ => rfl

theorem onlyChanges_setPc (s : State) (w : Word) : OnlyChanges s (s.setPc w) [.pc] := by
  intro p hp
  cases p with
  | pc => simp at hp
  | _ => rfl

theorem onlyChanges_advance (s : State) : OnlyChanges s s.advance [.pc] := onlyChanges_setPc s _

theorem onlyChanges_setI (s : State) (w : Word) : OnlyChanges s (s.setI w) [.index] := by
  intro p hp
  cases p with
  | index => simp at hp
  | _ => rfl

theorem onlyChanges_setDt (s : State) (b : Byte) : OnlyChanges s (s.setDt b) [.delayTimer] := by
  intro p hp
  cases p with
  | delayTimer => simp at hp
  | _ => rfl

theorem onlyChanges_setSt (s : State) (b : Byte) : OnlyChanges s (s.setSt b) [.soundTimer] := by
  intro p hp
  cases p with
  | soundTimer => simp at hp
  | _ => rfl

theorem onlyChanges_setStatus (s : State) (r : Status) : OnlyChanges s (s.setStatus r) [.status] := by
  intro p hp
  cases p with
  | status => simp at hp
  | _ => rfl

theorem onlyChanges_setDisplay (s : State) (m : Mode) (c : List Bool) :
    OnlyChanges s (s.setDisplay m c) [.mode, .framebuffer] := by
  intro p hp
  cases p with
  | mode => simp at hp
  | framebuffer => simp at hp
  | _ => rfl

/-- Replacing the cells in the current mode changes the framebuffer alone. -/
theorem onlyChanges_setCells (s : State) (c : List Bool) : OnlyChanges s (s.setDisplay s.mode c) [.framebuffer] := by
  intro p hp
  cases p with
  | framebuffer => simp at hp
  | _ => rfl

theorem onlyChanges_emit (s : State) (e : Event) : OnlyChanges s (s.emit e) [.events] := by
  intro p hp
  cases p with
  | events => simp at hp
  | _ => rfl

theorem onlyChanges_nextDraw (s : State) : OnlyChanges s s.nextDraw [.draws] := by
  intro p hp
  cases p with
  | draws => simp at hp
  | _ => rfl

theorem onlyChanges_takeFault (s : State) (t : Trap) (op : Option Word) :
    OnlyChanges s (s.takeFault t op) [.status, .faultRecord] := by
  intro p hp
  cases p with
  | status => simp at hp
  | faultRecord => simp at hp
  | _ => rfl

theorem onlyChanges_storeByte (s : State) (a : Nat) (b : Byte) : OnlyChanges s (s.storeByte a b) [.memByte a] := by
  intro p hp
  cases p with
  | memByte k => simp only [StatePart.same, State.byteAt_storeByte]; rw [if_neg (by simpa using hp)]
  | _ => rfl

theorem onlyChanges_storeBytes (s : State) (a : Nat) (bs : List Byte) :
    OnlyChanges s (s.storeBytes a bs) (memSpan a bs.length) := by
  intro p hp
  cases p with
  | memByte k =>
    simp only [StatePart.same, State.byteAt_storeBytes]
    rw [if_neg]
    rintro ⟨h1, h2⟩
    exact hp (List.mem_map.2 ⟨k - a, by simp; omega, by simp; omega⟩)
  | _ => rw [State.storeBytes_eq]; rfl

theorem onlyChanges_loadRegs (s : State) (x : Nibble) (bs : List Byte) (h : bs.length = x.toNat + 1) :
    OnlyChanges s (s.loadRegs 0 bs) (regsUpTo x) := by
  intro p hp
  have hx := x.isLt
  cases p with
  | reg y =>
    simp only [StatePart.same, State.getV_loadRegs bs s 0 y (by omega)]
    rw [if_neg]
    rintro ⟨_, h2⟩
    exact hp (List.mem_map.2 ⟨y.toNat, by simp; omega, by simp⟩)
  | _ => rw [State.loadRegs_eq]; rfl

theorem onlyChanges_setPrevKey (s : State) (k : Fin 16) (b : Bool) :
    OnlyChanges s (s.setPrevKey (s.prevKey.set k.val b k.isLt)) [.prevKey k] := by
  intro p hp
  cases p with
  | prevKey j =>
    have : k.val ≠ j.val := fun e => hp (by simp [Fin.ext e.symm])
    simp [StatePart.same, this]
  | _ => rfl

/-- A list of parts made longer by more updates. -/
theorem OnlyChanges.append {s t u : State} {ps qs : List StatePart} (h : OnlyChanges s t ps) (h' : OnlyChanges t u qs) :
    OnlyChanges s u (ps ++ qs) :=
  (h.mono fun _ hp => List.mem_append_left _ hp).trans (h'.mono fun _ hp => List.mem_append_right _ hp)

end Sys2Proof.Machine
end

