-- ==== Sys2Proof/Laws/Exec.lean ====
section
/-! SUPPORT. What exec can do, said once: every instruction runs through runInstr, and it either takes a
fault or changes only the parts listed for it. Later proofs cite these. -/

namespace Sys2Proof.Machine

/-- Every instruction is a body run by `runInstr` (R162, R165, R166). -/
theorem exec_runs (i : Instr) (s : State) : ∃ body, exec i s = runInstr i s body := by
  cases i <;>
    simp only [exec, execCls, execRet, execScd, execScr, execScl, execExit, execLow, execHigh, execJp,
      execCall, execSeImm, execSneImm, execSeReg, execLdImm, execAddImm, execLdReg, execOr, execAnd,
      execXor, execAddReg, execSub, execShr, execSubn, execShl, execSneReg, execLdI, execJpOff, execRnd,
      execDrw, execSkp, execSknp, execLdFromDt, execLdK, execLdDt, execLdSt, execAddI, execLdF, execLdHf,
      execLdB, execLdStore, execLdLoad] <;>
    exact ⟨_, rfl⟩

/-- The parts each instruction may write when it takes no fault (its rule's pseudocode, with `pc`). -/
def mayWrite (s : State) : Instr → List StatePart
  | .cls => [.pc, .framebuffer]
  | .ret => [.pc, .sp]
  | .scd _ | .scr | .scl => [.pc, .events]
  | .exit => [.pc, .status]
  | .low | .high => [.pc, .mode, .framebuffer]
  | .jp _ | .jpOff _ => [.pc]
  | .call _ => if h : s.sp.val < 16 then [.pc, .sp, .stackEntry ⟨s.sp.val, h⟩] else []
  | .seImm _ _ | .sneImm _ _ | .seReg _ _ | .sneReg _ _ | .skp _ | .sknp _ => [.pc]
  | .ldImm x _ | .addImm x _ | .ldReg x _ | .ldFromDt x => [.pc, .reg x]
  | .or x _ | .and x _ | .xor x _ => if s.quirks.resetFlagOnLogicOps then [.pc, .reg x, .reg vf] else [.pc, .reg x]
  | .addReg x _ | .sub x _ | .shr x _ | .subn x _ | .shl x _ => [.pc, .reg x, .reg vf]
  | .rnd x _ => [.pc, .reg x, .draws]
  | .drw _ _ _ => [.pc, .framebuffer, .reg vf]
  | .ldK x => if s.cfg.keywaitConsumes then .pc :: .reg x :: (List.finRange 16).map .prevKey else [.pc, .reg x]
  | .ldDt _ => [.pc, .delayTimer]
  | .ldSt _ => [.pc, .soundTimer]
  | .ldI _ | .addI _ | .ldF _ | .ldHf _ => [.pc, .index]
  | .ldB _ => .pc :: memSpan s.i.toNat 3
  | .ldStore x => if s.quirks.memoryIncrementOnBulkTransfer then .pc :: .index :: memSpan s.i.toNat (x.toNat + 1)
      else .pc :: memSpan s.i.toNat (x.toNat + 1)
  | .ldLoad x => if s.quirks.memoryIncrementOnBulkTransfer then .pc :: .index :: regsUpTo x else .pc :: regsUpTo x

/-! ### Bodies of one shape -/

/-- A body's updates after the fetch advance, added to the advance's own. -/
theorem changes_after_advance {s t : State} {ps : List StatePart} (h : OnlyChanges s.advance t ps) :
    OnlyChanges s t (.pc :: ps) :=
  (onlyChanges_advance s).append h

theorem onlyChanges_setResultFlag (s : State) (x : Nibble) (r : Byte) (b : Bool) :
    OnlyChanges s (s.setResultFlag x r b) [.reg x, .reg vf] :=
  (onlyChanges_setV s x r).append (onlyChanges_setV _ vf _)

theorem onlyChanges_setLogic (s : State) (x : Nibble) (r : Byte) :
    OnlyChanges s (s.setLogic x r) (if s.quirks.resetFlagOnLogicOps then [.reg x, .reg vf] else [.reg x]) := by
  unfold State.setLogic
  split
  · exact (onlyChanges_setV s x r).append (onlyChanges_setV _ vf _)
  · exact onlyChanges_setV s x r

theorem onlyChanges_skipIf (s : State) (b : Bool) : OnlyChanges s (s.skipIf b) [.pc] := by
  rw [State.skipIf_eq]; exact onlyChanges_setPc s _

theorem onlyChanges_bulkIndex (s : State) (x : Nibble) :
    OnlyChanges s (s.bulkIndex x) (if s.quirks.memoryIncrementOnBulkTransfer then [.index] else []) := by
  unfold State.bulkIndex
  split
  · exact onlyChanges_setI s _
  · exact OnlyChanges.rfl

theorem onlyChanges_selectMode (s : State) (m : Mode) : OnlyChanges s (s.selectMode m) [.mode, .framebuffer] := by
  unfold State.selectMode
  split
  · exact OnlyChanges.rfl
  · exact onlyChanges_setDisplay s m _

theorem onlyChanges_push {s t : State} {w : Word} (h : s.push w = .ok t) :
    ∃ hs : s.sp.val < 16, OnlyChanges s t [.sp, .stackEntry ⟨s.sp.val, hs⟩] := by
  by_cases hs : s.sp.val < 16
  · refine ⟨hs, ?_⟩
    rw [State.push_ok w hs] at h
    cases h
    intro p hp
    cases p with
    | sp => simp at hp
    | stackEntry j =>
      have hj : s.sp.val ≠ j.val := fun e => hp (by simp [e])
      simp [StatePart.same, hj]
    | _ => rfl
  · rw [State.push_error w hs] at h; cases h

theorem onlyChanges_pop {s : State} {r : Word × State} (h : s.pop = .ok r) : OnlyChanges s r.2 [.sp] := by
  by_cases hs : 0 < s.sp.val
  · rw [State.pop_ok hs] at h
    cases h
    intro p hp
    cases p with
    | sp => simp at hp
    | _ => rfl
  · rw [State.pop_error hs] at h; cases h

theorem onlyChanges_reservedNoOp {s t : State} {i : Instr} {a : Word} (h : s.reservedNoOp i a = .ok t) :
    OnlyChanges s t [.events] := by
  unfold State.reservedNoOp State.requireExtended at h
  split at h
  · cases h; exact onlyChanges_emit s _
  · cases h

theorem onlyChanges_consumeEdge (s : State) (k : Nibble) :
    OnlyChanges s (s.consumeEdge k) (if s.cfg.keywaitConsumes then [.prevKey ⟨k.toNat, k.isLt⟩] else []) := by
  unfold State.consumeEdge
  split
  · exact onlyChanges_setPrevKey s ⟨k.toNat, k.isLt⟩ _
  · exact OnlyChanges.rfl

/-- A successful bind of two checks: the first one answered. -/
theorem except_bind_ok {α β : Type} {x : Except Trap α} {f : α → Except Trap β} {b : β} (h : x >>= f = .ok b) :
    ∃ a, x = .ok a ∧ f a = .ok b := by
  cases x with
  | ok a => exact ⟨a, rfl, h⟩
  | error e => cases h

theorem requireExtended_inv {s t : State} (h : s.requireExtended = .ok t) : t = s := by
  unfold State.requireExtended at h
  split at h <;> simp_all

theorem memWrites_inv {s t : State} {a : Nat} {bs : List Byte} (h : s.memWrites a bs = .ok t) :
    t = s.storeBytes a bs ∧ (bs = [] ∨ a + bs.length ≤ memSize) := by
  rw [State.memWrites_eq] at h
  split at h
  · exact ⟨by simpa using h.symm, by assumption⟩
  · cases h

theorem memReads_inv {s : State} {as : List Nat} {bs : List Byte} (h : s.memReads as = .ok bs) :
    bs = as.map s.byteAt := by
  rw [State.memReads_eq] at h
  split at h
  · simpa using h.symm
  · cases h

/-! ### The frame of every instruction -/

/-- What an instruction that answers a next state has done: it took a fault, from the state it began in, or
it changed only the parts listed for it. -/
theorem exec_frame (i : Instr) (s t : State) (h : exec i s = .next t) :
    (∃ e, t = s.takeFault e (some (encode i))) ∨ OnlyChanges s t (mayWrite s i) := by
  cases i with
  | cls =>
    simp only [exec, execCls] at h
    rcases runInstr_cases h with h | ⟨e, _, he⟩
    · cases h; exact .inr (changes_after_advance (onlyChanges_setCells s.advance _))
    · exact .inl ⟨e, he⟩
  | ret =>
    simp only [exec, execRet] at h
    rcases runInstr_cases h with h | ⟨e, _, he⟩
    · obtain ⟨r, hr, h⟩ := except_bind_ok h
      cases h
      refine .inr ((changes_after_advance ((onlyChanges_pop hr).append (onlyChanges_setPc r.2 r.1))).mono ?_)
      simp [mayWrite]
    · exact .inl ⟨e, he⟩
  | scd n =>
    simp only [exec, execScd] at h
    rcases runInstr_cases h with h | ⟨e, _, he⟩
    · exact .inr (changes_after_advance (onlyChanges_reservedNoOp h))
    · exact .inl ⟨e, he⟩
  | scr =>
    simp only [exec, execScr] at h
    rcases runInstr_cases h with h | ⟨e, _, he⟩
    · exact .inr (changes_after_advance (onlyChanges_reservedNoOp h))
    · exact .inl ⟨e, he⟩
  | scl =>
    simp only [exec, execScl] at h
    rcases runInstr_cases h with h | ⟨e, _, he⟩
    · exact .inr (changes_after_advance (onlyChanges_reservedNoOp h))
    · exact .inl ⟨e, he⟩
  | exit =>
    simp only [exec, execExit] at h
    rcases runInstr_cases h with h | ⟨e, _, he⟩
    · obtain ⟨u, hu, h⟩ := except_bind_ok h
      cases requireExtended_inv hu; cases h
      exact .inr (changes_after_advance (onlyChanges_setStatus s.advance _))
    · exact .inl ⟨e, he⟩
  | low =>
    simp only [exec, execLow] at h
    rcases runInstr_cases h with h | ⟨e, _, he⟩
    · obtain ⟨u, hu, h⟩ := except_bind_ok h
      cases requireExtended_inv hu; cases h
      exact .inr (changes_after_advance (onlyChanges_selectMode s.advance _))
    · exact .inl ⟨e, he⟩
  | high =>
    simp only [exec, execHigh] at h
    rcases runInstr_cases h with h | ⟨e, _, he⟩
    · obtain ⟨u, hu, h⟩ := except_bind_ok h
      cases requireExtended_inv hu; cases h
      exact .inr (changes_after_advance (onlyChanges_selectMode s.advance _))
    · exact .inl ⟨e, he⟩
  | jp nnn =>
    simp only [exec, execJp] at h
    rcases runInstr_cases h with h | ⟨e, _, he⟩
    · cases h; exact .inr ((changes_after_advance (onlyChanges_setPc s.advance _)).mono (by simp [mayWrite]))
    · exact .inl ⟨e, he⟩
  | jpOff nnn =>
    simp only [exec, execJpOff] at h
    rcases runInstr_cases h with h | ⟨e, _, he⟩
    · cases h; exact .inr ((changes_after_advance (onlyChanges_setPc s.advance _)).mono (by simp [mayWrite]))
    · exact .inl ⟨e, he⟩
  | call nnn =>
    simp only [exec, execCall] at h
    rcases runInstr_cases h with h | ⟨e, _, he⟩
    · obtain ⟨u, hu, h⟩ := except_bind_ok h
      obtain ⟨hs, hc⟩ := onlyChanges_push hu
      cases h
      refine .inr ((changes_after_advance (hc.append (onlyChanges_setPc u _))).mono ?_)
      have hs' : s.sp.val < 16 := hs
      simp [mayWrite, hs']
    · exact .inl ⟨e, he⟩
  | seImm x nn =>
    simp only [exec, execSeImm] at h
    rcases runInstr_cases h with h | ⟨e, _, he⟩
    · cases h; exact .inr ((changes_after_advance (onlyChanges_skipIf s.advance _)).mono (by simp [mayWrite]))
    · exact .inl ⟨e, he⟩
  | sneImm x nn =>
    simp only [exec, execSneImm] at h
    rcases runInstr_cases h with h | ⟨e, _, he⟩
    · cases h; exact .inr ((changes_after_advance (onlyChanges_skipIf s.advance _)).mono (by simp [mayWrite]))
    · exact .inl ⟨e, he⟩
  | seReg x y =>
    simp only [exec, execSeReg] at h
    rcases runInstr_cases h with h | ⟨e, _, he⟩
    · cases h; exact .inr ((changes_after_advance (onlyChanges_skipIf s.advance _)).mono (by simp [mayWrite]))
    · exact .inl ⟨e, he⟩
  | sneReg x y =>
    simp only [exec, execSneReg] at h
    rcases runInstr_cases h with h | ⟨e, _, he⟩
    · cases h; exact .inr ((changes_after_advance (onlyChanges_skipIf s.advance _)).mono (by simp [mayWrite]))
    · exact .inl ⟨e, he⟩
  | skp x =>
    simp only [exec, execSkp] at h
    rcases runInstr_cases h with h | ⟨e, _, he⟩
    · obtain ⟨b, _, h⟩ := except_bind_ok h
      cases h; exact .inr ((changes_after_advance (onlyChanges_skipIf s.advance _)).mono (by simp [mayWrite]))
    · exact .inl ⟨e, he⟩
  | sknp x =>
    simp only [exec, execSknp] at h
    rcases runInstr_cases h with h | ⟨e, _, he⟩
    · obtain ⟨b, _, h⟩ := except_bind_ok h
      cases h; exact .inr ((changes_after_advance (onlyChanges_skipIf s.advance _)).mono (by simp [mayWrite]))
    · exact .inl ⟨e, he⟩
  | ldImm x nn =>
    simp only [exec, execLdImm] at h
    rcases runInstr_cases h with h | ⟨e, _, he⟩
    · cases h; exact .inr (changes_after_advance (onlyChanges_setV s.advance x _))
    · exact .inl ⟨e, he⟩
  | addImm x nn =>
    simp only [exec, execAddImm] at h
    rcases runInstr_cases h with h | ⟨e, _, he⟩
    · cases h; exact .inr (changes_after_advance (onlyChanges_setV s.advance x _))
    · exact .inl ⟨e, he⟩
  | ldReg x y =>
    simp only [exec, execLdReg] at h
    rcases runInstr_cases h with h | ⟨e, _, he⟩
    · cases h; exact .inr (changes_after_advance (onlyChanges_setV s.advance x _))
    · exact .inl ⟨e, he⟩
  | ldFromDt x =>
    simp only [exec, execLdFromDt] at h
    rcases runInstr_cases h with h | ⟨e, _, he⟩
    · cases h; exact .inr (changes_after_advance (onlyChanges_setV s.advance x _))
    · exact .inl ⟨e, he⟩
  | or x y =>
    simp only [exec, execOr] at h
    rcases runInstr_cases h with h | ⟨e, _, he⟩
    · cases h
      refine .inr ((changes_after_advance (onlyChanges_setLogic s.advance x _)).mono ?_)
      simp only [mayWrite, State.quirks_advance]; split <;> rename_i hc <;> simp [hc]
    · exact .inl ⟨e, he⟩
  | and x y =>
    simp only [exec, execAnd] at h
    rcases runInstr_cases h with h | ⟨e, _, he⟩
    · cases h
      refine .inr ((changes_after_advance (onlyChanges_setLogic s.advance x _)).mono ?_)
      simp only [mayWrite, State.quirks_advance]; split <;> rename_i hc <;> simp [hc]
    · exact .inl ⟨e, he⟩
  | xor x y =>
    simp only [exec, execXor] at h
    rcases runInstr_cases h with h | ⟨e, _, he⟩
    · cases h
      refine .inr ((changes_after_advance (onlyChanges_setLogic s.advance x _)).mono ?_)
      simp only [mayWrite, State.quirks_advance]; split <;> rename_i hc <;> simp [hc]
    · exact .inl ⟨e, he⟩
  | addReg x y =>
    simp only [exec, execAddReg] at h
    rcases runInstr_cases h with h | ⟨e, _, he⟩
    · cases h; exact .inr (changes_after_advance (onlyChanges_setResultFlag s.advance x _ _))
    · exact .inl ⟨e, he⟩
  | sub x y =>
    simp only [exec, execSub] at h
    rcases runInstr_cases h with h | ⟨e, _, he⟩
    · cases h; exact .inr (changes_after_advance (onlyChanges_setResultFlag s.advance x _ _))
    · exact .inl ⟨e, he⟩
  | shr x y =>
    simp only [exec, execShr] at h
    rcases runInstr_cases h with h | ⟨e, _, he⟩
    · cases h; exact .inr (changes_after_advance (onlyChanges_setResultFlag s.advance x _ _))
    · exact .inl ⟨e, he⟩
  | subn x y =>
    simp only [exec, execSubn] at h
    rcases runInstr_cases h with h | ⟨e, _, he⟩
    · cases h; exact .inr (changes_after_advance (onlyChanges_setResultFlag s.advance x _ _))
    · exact .inl ⟨e, he⟩
  | shl x y =>
    simp only [exec, execShl] at h
    rcases runInstr_cases h with h | ⟨e, _, he⟩
    · cases h; exact .inr (changes_after_advance (onlyChanges_setResultFlag s.advance x _ _))
    · exact .inl ⟨e, he⟩
  | rnd x nn =>
    simp only [exec, execRnd] at h
    rcases runInstr_cases h with h | ⟨e, _, he⟩
    · cases h
      exact .inr (changes_after_advance ((onlyChanges_setV s.advance x _).append (onlyChanges_nextDraw _)))
    · exact .inl ⟨e, he⟩
  | drw x y n =>
    simp only [exec, execDrw] at h
    rcases runInstr_cases h with h | ⟨e, _, he⟩
    · obtain ⟨rows, _, h⟩ := except_bind_ok h
      cases h
      exact .inr (changes_after_advance ((onlyChanges_setCells s.advance _).append (onlyChanges_setV _ vf _)))
    · exact .inl ⟨e, he⟩
  | ldK x =>
    simp only [exec, execLdK] at h
    rcases runInstr_cases h with h | ⟨e, _, he⟩
    · split at h
      · rename_i k _
        cases h
        refine .inr ((changes_after_advance ((onlyChanges_setV s.advance x _).append
          (onlyChanges_consumeEdge _ k))).mono ?_)
        simp only [mayWrite, State.setV_cfg, State.advance_cfg]
        split <;> rename_i hc <;> simp [hc]
      · cases h
        refine .inr ((changes_after_advance (onlyChanges_setPc s.advance _)).mono ?_)
        simp only [mayWrite]; split <;> simp
    · exact .inl ⟨e, he⟩
  | ldDt x =>
    simp only [exec, execLdDt] at h
    rcases runInstr_cases h with h | ⟨e, _, he⟩
    · cases h; exact .inr (changes_after_advance (onlyChanges_setDt s.advance _))
    · exact .inl ⟨e, he⟩
  | ldSt x =>
    simp only [exec, execLdSt] at h
    rcases runInstr_cases h with h | ⟨e, _, he⟩
    · cases h; exact .inr (changes_after_advance (onlyChanges_setSt s.advance _))
    · exact .inl ⟨e, he⟩
  | ldI nnn =>
    simp only [exec, execLdI] at h
    rcases runInstr_cases h with h | ⟨e, _, he⟩
    · cases h; exact .inr (changes_after_advance (onlyChanges_setI s.advance _))
    · exact .inl ⟨e, he⟩
  | addI x =>
    simp only [exec, execAddI] at h
    rcases runInstr_cases h with h | ⟨e, _, he⟩
    · cases h; exact .inr (changes_after_advance (onlyChanges_setI s.advance _))
    · exact .inl ⟨e, he⟩
  | ldF x =>
    simp only [exec, execLdF] at h
    rcases runInstr_cases h with h | ⟨e, _, he⟩
    · cases h; exact .inr (changes_after_advance (onlyChanges_setI s.advance _))
    · exact .inl ⟨e, he⟩
  | ldHf x =>
    simp only [exec, execLdHf] at h
    rcases runInstr_cases h with h | ⟨e, _, he⟩
    · obtain ⟨u, hu, h⟩ := except_bind_ok h
      cases requireExtended_inv hu; cases h
      exact .inr (changes_after_advance (onlyChanges_setI s.advance _))
    · exact .inl ⟨e, he⟩
  | ldB x =>
    simp only [exec, execLdB] at h
    rcases runInstr_cases h with h | ⟨e, _, he⟩
    · rw [(memWrites_inv h).1]
      exact .inr (changes_after_advance (onlyChanges_storeBytes s.advance _ _))
    · exact .inl ⟨e, he⟩
  | ldStore x =>
    simp only [exec, execLdStore] at h
    rcases runInstr_cases h with h | ⟨e, _, he⟩
    · obtain ⟨u, hu, h⟩ := except_bind_ok h
      cases h
      have hq : u.quirks = s.quirks := by rw [(memWrites_inv hu).1, State.storeBytes_eq]; rfl
      have hl : (s.advance.vUpTo x).length = x.toNat + 1 := by simp [State.vUpTo]
      have hc := onlyChanges_storeBytes s.advance s.advance.i.toNat (s.advance.vUpTo x)
      rw [← (memWrites_inv hu).1, hl] at hc
      refine .inr ((changes_after_advance (hc.append (onlyChanges_bulkIndex u x))).mono ?_)
      simp only [mayWrite, hq, State.advance_i]
      split <;> simp; tauto
    · exact .inl ⟨e, he⟩
  | ldLoad x =>
    simp only [exec, execLdLoad] at h
    rcases runInstr_cases h with h | ⟨e, _, he⟩
    · obtain ⟨bs, hb, h⟩ := except_bind_ok h
      cases h
      have hl : bs.length = x.toNat + 1 := by rw [memReads_inv hb]; simp [State.bulkAddrs]
      have hq : (s.advance.loadRegs 0 bs).quirks = s.quirks := by rw [State.loadRegs_eq]; rfl
      refine .inr ((changes_after_advance ((onlyChanges_loadRegs s.advance x bs hl).append
        (onlyChanges_bulkIndex _ x))).mono ?_)
      simp only [mayWrite, hq]
      split <;> simp; tauto
    · exact .inl ⟨e, he⟩

end Sys2Proof.Machine
end

