-- ==== Sys2Proof/Laws/Outcome.lean ====
section
/-! SUPPORT. What each instruction answers when it takes no fault, said once as an equation: `outcome s i t`.
Together with `exec_outcome` it takes exec apart without unfolding a meaning. -/

namespace Sys2Proof.Machine

/-- The state `t` that the instruction `i`, run from `s`, answers when it takes no fault, with the condition under
which it takes none. -/
def outcome (s : State) (i : Instr) (t : State) : Prop :=
  match i with
  | .cls => t = s.advance.setDisplay s.mode (blankCells s.mode)
  | .ret => ∃ h : 0 < s.sp.val,
      t = { s with pc := s.stack[s.sp.val - 1]'(by omega), sp := ⟨s.sp.val - 1, by omega⟩ }
  | .scd n => s.quirks.extendedOpcodes = true ∧ t = s.advance.emit (.diagnostic (encode (.scd n)) s.pc)
  | .scr => s.quirks.extendedOpcodes = true ∧ t = s.advance.emit (.diagnostic (encode .scr) s.pc)
  | .scl => s.quirks.extendedOpcodes = true ∧ t = s.advance.emit (.diagnostic (encode .scl) s.pc)
  | .exit => s.quirks.extendedOpcodes = true ∧ t = s.advance.setStatus .terminated
  | .low => s.quirks.extendedOpcodes = true ∧ t = s.advance.selectMode .low
  | .high => s.quirks.extendedOpcodes = true ∧ t = s.advance.selectMode .high
  | .jp nnn => t = s.setPc (nnn.setWidth 16)
  | .call nnn => ∃ h : s.sp.val < 16, t = { s with
      pc := nnn.setWidth 16, stack := s.stack.set s.sp.val (s.pc + 2) h, sp := ⟨s.sp.val + 1, by omega⟩ }
  | .seImm x nn => t = s.advance.skipIf (s.getV x == nn)
  | .sneImm x nn => t = s.advance.skipIf (s.getV x != nn)
  | .seReg x y => t = s.advance.skipIf (s.getV x == s.getV y)
  | .sneReg x y => t = s.advance.skipIf (s.getV x != s.getV y)
  | .ldImm x nn => t = s.advance.setV x nn
  | .addImm x nn => t = s.advance.setV x (s.getV x + nn)
  | .ldReg x y => t = s.advance.setV x (s.getV y)
  | .or x y => t = s.advance.setLogic x (s.getV x ||| s.getV y)
  | .and x y => t = s.advance.setLogic x (s.getV x &&& s.getV y)
  | .xor x y => t = s.advance.setLogic x (s.getV x ^^^ s.getV y)
  | .addReg x y => t = s.advance.setResultFlag x (s.getV x + s.getV y) (carryOut (s.getV x) (s.getV y))
  | .sub x y => t = s.advance.setResultFlag x (s.getV x - s.getV y) (noBorrow (s.getV x) (s.getV y))
  | .subn x y => t = s.advance.setResultFlag x (s.getV y - s.getV x) (noBorrow (s.getV y) (s.getV x))
  | .shr x y => t = s.advance.setResultFlag x (s.shiftSource x y >>> 1) (shiftOutLsb (s.shiftSource x y))
  | .shl x y => t = s.advance.setResultFlag x (s.shiftSource x y <<< 1) (shiftOutMsb (s.shiftSource x y))
  | .ldI nnn => t = s.advance.setI (nnn.setWidth 16)
  | .jpOff nnn => t = s.setPc (s.jumpOffTarget nnn)
  | .rnd x nn => t = (s.advance.setV x (s.drawByte &&& nn)).nextDraw
  | .drw x y n => ∃ rows, spriteRows s n (visibleRows s y n) = .ok rows ∧
      t = (s.advance.setDisplay s.mode (toggleCells (spriteCells s x y n rows) s.fb).1).setFlag
        (toggleCells (spriteCells s x y n rows) s.fb).2
  | .skp x => ∃ h : (s.getV x).toNat < 16, t = s.advance.skipIf s.key[(s.getV x).toNat]
  | .sknp x => ∃ h : (s.getV x).toNat < 16, t = s.advance.skipIf (!s.key[(s.getV x).toNat])
  | .ldFromDt x => t = s.advance.setV x s.dt
  | .ldK x => (s.waitedKey = none ∧ t = s) ∨
      ∃ k, s.waitedKey = some k ∧ t = (s.advance.setV x (k.setWidth 8)).consumeEdge k
  | .ldDt x => t = s.advance.setDt (s.getV x)
  | .ldSt x => t = s.advance.setSt (s.getV x)
  | .addI x => t = s.advance.setI (s.i + (s.getV x).setWidth 16)
  | .ldF x => t = s.advance.setI (s.glyphLo x)
  | .ldHf x => s.quirks.extendedOpcodes = true ∧ t = s.advance.setI (s.glyphHi x)
  | .ldB x => s.i.toNat + 2 < memSize ∧ t = s.advance.storeBytes s.i.toNat (bcdDigits (s.getV x))
  | .ldStore x => s.i.toNat + x.toNat < memSize ∧
      t = (s.advance.storeBytes s.i.toNat (s.vUpTo x)).bulkIndex x
  | .ldLoad x => s.i.toNat + x.toNat < memSize ∧
      t = (s.advance.loadRegs 0 ((s.bulkAddrs x).map s.byteAt)).bulkIndex x

theorem requireExtended_inv' {s t : State} (h : s.requireExtended = .ok t) :
    s.quirks.extendedOpcodes = true ∧ t = s := by
  refine ⟨?_, requireExtended_inv h⟩
  unfold State.requireExtended at h
  split at h
  · assumption
  · cases h

theorem reservedNoOp_inv {s t : State} {i : Instr} {a : Word} (h : s.reservedNoOp i a = .ok t) :
    s.quirks.extendedOpcodes = true ∧ t = s.emit (.diagnostic (encode i) a) := by
  obtain ⟨u, hu, h⟩ := except_bind_ok h
  obtain ⟨hq, e⟩ := requireExtended_inv' hu
  cases h
  exact ⟨hq, by rw [e]⟩

theorem memReads_bulk_inv {s : State} {x : Nibble} {bs : List Byte} (h : s.memReads (s.bulkAddrs x) = .ok bs) :
    s.i.toNat + x.toNat < memSize := by
  by_contra hc
  rw [State.memReads_eq] at h
  split at h
  · rename_i hn
    have := List.find?_eq_none.1 hn (s.i.toNat + x.toNat)
      (List.mem_map.2 ⟨x.toNat, List.mem_range.2 (Nat.lt_succ_self _), rfl⟩)
    simp at this; omega
  · cases h

theorem spriteRows_advance (s : State) (n : Nibble) (rs : List Nat) :
    spriteRows s.advance n rs = spriteRows s n rs := by
  induction rs with
  | nil => rfl
  | cons r rs ih => simp only [spriteRows, ih]; rfl

theorem State.keyHeld_inv {s : State} {b : Byte} {r : Bool} (h : s.keyHeld b = .ok r) :
    ∃ hb : b.toNat < 16, r = s.key[b.toNat] := by
  unfold State.keyHeld at h
  split at h
  · exact ⟨by assumption, by simpa using h.symm⟩
  · cases h

/-- An instruction that answers a next state took a fault, from the state it began in, or has its outcome. -/
theorem exec_outcome (i : Instr) (s t : State) (h : exec i s = .next t) :
    (∃ e, t = s.takeFault e (some (encode i))) ∨ outcome s i t := by
  cases i <;>
    simp only [exec, execCls, execRet, execScd, execScr, execScl, execExit, execLow, execHigh, execJp,
      execCall, execSeImm, execSneImm, execSeReg, execLdImm, execAddImm, execLdReg, execOr, execAnd,
      execXor, execAddReg, execSub, execShr, execSubn, execShl, execSneReg, execLdI, execJpOff, execRnd,
      execDrw, execSkp, execSknp, execLdFromDt, execLdK, execLdDt, execLdSt, execAddI, execLdF, execLdHf,
      execLdB, execLdStore, execLdLoad] at h <;>
    (rcases runInstr_cases h with h | ⟨e, _, he⟩ <;> [refine .inr ?_; exact .inl ⟨e, he⟩]) <;>
    simp only [outcome]
  case ret =>
    obtain ⟨r, hr, h⟩ := except_bind_ok h
    by_cases hs : 0 < s.sp.val
    · rw [State.pop_ok (s := s.advance) hs] at hr; cases hr; cases h; exact ⟨hs, rfl⟩
    · rw [State.pop_error (s := s.advance) hs] at hr; cases hr
  case call nnn _ =>
    obtain ⟨u, hu, h⟩ := except_bind_ok h
    by_cases hs : s.sp.val < 16
    · rw [State.push_ok (s := s.advance) _ hs] at hu; cases hu; cases h; exact ⟨hs, rfl⟩
    · rw [State.push_error (s := s.advance) _ hs] at hu; cases hu
  case scd n _ => exact reservedNoOp_inv h
  case scr => exact reservedNoOp_inv h
  case scl => exact reservedNoOp_inv h
  case exit =>
    obtain ⟨u, hu, h⟩ := except_bind_ok h
    obtain ⟨hq, rfl⟩ := requireExtended_inv' hu; cases h; exact ⟨hq, rfl⟩
  case low =>
    obtain ⟨u, hu, h⟩ := except_bind_ok h
    obtain ⟨hq, rfl⟩ := requireExtended_inv' hu; cases h; exact ⟨hq, rfl⟩
  case high =>
    obtain ⟨u, hu, h⟩ := except_bind_ok h
    obtain ⟨hq, rfl⟩ := requireExtended_inv' hu; cases h; exact ⟨hq, rfl⟩
  case ldHf x _ =>
    obtain ⟨u, hu, h⟩ := except_bind_ok h
    obtain ⟨hq, rfl⟩ := requireExtended_inv' hu; cases h; exact ⟨hq, rfl⟩
  case drw x y n _ =>
    obtain ⟨rows, hr, h⟩ := except_bind_ok h
    rw [spriteRows_advance] at hr
    cases h
    exact ⟨rows, hr, rfl⟩
  case skp x _ =>
    obtain ⟨b, hb, h⟩ := except_bind_ok h
    obtain ⟨hk, rfl⟩ := State.keyHeld_inv hb; cases h; exact ⟨hk, rfl⟩
  case sknp x _ =>
    obtain ⟨b, hb, h⟩ := except_bind_ok h
    obtain ⟨hk, rfl⟩ := State.keyHeld_inv hb; cases h; exact ⟨hk, rfl⟩
  case ldK x _ =>
    split at h
    · rename_i k hk; cases h; exact .inr ⟨k, hk, rfl⟩
    · rename_i hk
      cases h
      have : s.advance.pc - 2 = s.pc := by simp
      exact .inl ⟨hk, by rw [this]; rfl⟩
  case ldB x _ =>
    obtain ⟨h1, h2⟩ := memWrites_inv h
    refine ⟨?_, h1⟩
    rcases h2 with h2 | h2
    · simp [bcdDigits] at h2
    · simp [bcdDigits, memSize] at h2; show _ < 4096; omega
  case ldStore x _ =>
    obtain ⟨u, hu, h⟩ := except_bind_ok h
    obtain ⟨h1, h2⟩ := memWrites_inv hu
    cases h
    refine ⟨?_, by rw [h1]; rfl⟩
    have hl : (s.advance.vUpTo x).length = x.toNat + 1 := by simp [State.vUpTo]
    rcases h2 with h2 | h2
    · rw [h2] at hl; simp at hl
    · rw [hl] at h2; simp [memSize] at h2; show _ < 4096; omega
  case ldLoad x _ =>
    obtain ⟨bs, hb, h⟩ := except_bind_ok h
    cases h
    exact ⟨memReads_bulk_inv (s := s.advance) hb, by rw [memReads_inv hb]; rfl⟩
  all_goals (cases h; rfl)

end Sys2Proof.Machine
end

