-- ==== Sys2Proof/Laws/PerInstr.lean ====
section
/-! SUPPORT. What holds of every instruction as syntax, one lemma per constructor: the family of its word is the
family its pattern names (spec/30_encoding.md R121, R124). -/

namespace Sys2Proof.Laws

/-- The family (the top hexadecimal digit) of an instruction's pattern in the table of R124. -/
def LeadingNibble.family : Instr → Nibble
  | .cls | .ret | .scd _ | .scr | .scl | .exit | .low | .high => 0x0#4
  | .jp _ => 0x1#4
  | .call _ => 0x2#4
  | .seImm _ _ => 0x3#4
  | .sneImm _ _ => 0x4#4
  | .seReg _ _ => 0x5#4
  | .ldImm _ _ => 0x6#4
  | .addImm _ _ => 0x7#4
  | .ldReg _ _ | .or _ _ | .and _ _ | .xor _ _ | .addReg _ _ | .sub _ _ | .shr _ _ | .subn _ _
  | .shl _ _ => 0x8#4
  | .sneReg _ _ => 0x9#4
  | .ldI _ => 0xA#4
  | .jpOff _ => 0xB#4
  | .rnd _ _ => 0xC#4
  | .drw _ _ _ => 0xD#4
  | .skp _ | .sknp _ => 0xE#4
  | .ldFromDt _ | .ldK _ | .ldDt _ | .ldSt _ | .addI _ | .ldF _ | .ldHf _ | .ldB _ | .ldStore _
  | .ldLoad _ => 0xF#4

/-- The word of the instruction is of the family its pattern names. -/
def LeadingNibble.Statement (i : Instr) : Prop := opF (encode i) = LeadingNibble.family i

theorem LeadingNibble.cls : LeadingNibble.Statement .cls := rfl
theorem LeadingNibble.ret : LeadingNibble.Statement .ret := rfl
theorem LeadingNibble.scd (n : Nibble) : LeadingNibble.Statement (.scd n) := opF_packXYN _ _ _ _
theorem LeadingNibble.scr : LeadingNibble.Statement .scr := rfl
theorem LeadingNibble.scl : LeadingNibble.Statement .scl := rfl
theorem LeadingNibble.exit : LeadingNibble.Statement .exit := rfl
theorem LeadingNibble.low : LeadingNibble.Statement .low := rfl
theorem LeadingNibble.high : LeadingNibble.Statement .high := rfl
theorem LeadingNibble.jp (nnn : Addr) : LeadingNibble.Statement (.jp nnn) := opF_packNNN _ _
theorem LeadingNibble.call (nnn : Addr) : LeadingNibble.Statement (.call nnn) := opF_packNNN _ _
theorem LeadingNibble.seImm (x : Nibble) (nn : Byte) : LeadingNibble.Statement (.seImm x nn) := opF_packXNN _ _ _
theorem LeadingNibble.sneImm (x : Nibble) (nn : Byte) : LeadingNibble.Statement (.sneImm x nn) := opF_packXNN _ _ _
theorem LeadingNibble.seReg (x : Nibble) (y : Nibble) : LeadingNibble.Statement (.seReg x y) := opF_packXYN _ _ _ _
theorem LeadingNibble.ldImm (x : Nibble) (nn : Byte) : LeadingNibble.Statement (.ldImm x nn) := opF_packXNN _ _ _
theorem LeadingNibble.addImm (x : Nibble) (nn : Byte) : LeadingNibble.Statement (.addImm x nn) := opF_packXNN _ _ _
theorem LeadingNibble.ldReg (x : Nibble) (y : Nibble) : LeadingNibble.Statement (.ldReg x y) := opF_packXYN _ _ _ _
theorem LeadingNibble.or (x : Nibble) (y : Nibble) : LeadingNibble.Statement (.or x y) := opF_packXYN _ _ _ _
theorem LeadingNibble.and (x : Nibble) (y : Nibble) : LeadingNibble.Statement (.and x y) := opF_packXYN _ _ _ _
theorem LeadingNibble.xor (x : Nibble) (y : Nibble) : LeadingNibble.Statement (.xor x y) := opF_packXYN _ _ _ _
theorem LeadingNibble.addReg (x : Nibble) (y : Nibble) : LeadingNibble.Statement (.addReg x y) := opF_packXYN _ _ _ _
theorem LeadingNibble.sub (x : Nibble) (y : Nibble) : LeadingNibble.Statement (.sub x y) := opF_packXYN _ _ _ _
theorem LeadingNibble.shr (x : Nibble) (y : Nibble) : LeadingNibble.Statement (.shr x y) := opF_packXYN _ _ _ _
theorem LeadingNibble.subn (x : Nibble) (y : Nibble) : LeadingNibble.Statement (.subn x y) := opF_packXYN _ _ _ _
theorem LeadingNibble.shl (x : Nibble) (y : Nibble) : LeadingNibble.Statement (.shl x y) := opF_packXYN _ _ _ _
theorem LeadingNibble.sneReg (x : Nibble) (y : Nibble) : LeadingNibble.Statement (.sneReg x y) := opF_packXYN _ _ _ _
theorem LeadingNibble.ldI (nnn : Addr) : LeadingNibble.Statement (.ldI nnn) := opF_packNNN _ _
theorem LeadingNibble.jpOff (nnn : Addr) : LeadingNibble.Statement (.jpOff nnn) := opF_packNNN _ _
theorem LeadingNibble.rnd (x : Nibble) (nn : Byte) : LeadingNibble.Statement (.rnd x nn) := opF_packXNN _ _ _
theorem LeadingNibble.drw (x : Nibble) (y : Nibble) (n : Nibble) : LeadingNibble.Statement (.drw x y n) := opF_packXYN _ _ _ _
theorem LeadingNibble.skp (x : Nibble) : LeadingNibble.Statement (.skp x) := opF_packXNN _ _ _
theorem LeadingNibble.sknp (x : Nibble) : LeadingNibble.Statement (.sknp x) := opF_packXNN _ _ _
theorem LeadingNibble.ldFromDt (x : Nibble) : LeadingNibble.Statement (.ldFromDt x) := opF_packXNN _ _ _
theorem LeadingNibble.ldK (x : Nibble) : LeadingNibble.Statement (.ldK x) := opF_packXNN _ _ _
theorem LeadingNibble.ldDt (x : Nibble) : LeadingNibble.Statement (.ldDt x) := opF_packXNN _ _ _
theorem LeadingNibble.ldSt (x : Nibble) : LeadingNibble.Statement (.ldSt x) := opF_packXNN _ _ _
theorem LeadingNibble.addI (x : Nibble) : LeadingNibble.Statement (.addI x) := opF_packXNN _ _ _
theorem LeadingNibble.ldF (x : Nibble) : LeadingNibble.Statement (.ldF x) := opF_packXNN _ _ _
theorem LeadingNibble.ldHf (x : Nibble) : LeadingNibble.Statement (.ldHf x) := opF_packXNN _ _ _
theorem LeadingNibble.ldB (x : Nibble) : LeadingNibble.Statement (.ldB x) := opF_packXNN _ _ _
theorem LeadingNibble.ldStore (x : Nibble) : LeadingNibble.Statement (.ldStore x) := opF_packXNN _ _ _
theorem LeadingNibble.ldLoad (x : Nibble) : LeadingNibble.Statement (.ldLoad x) := opF_packXNN _ _ _

end Sys2Proof.Laws
end

