-- ==== Sys2Proof/Laws/Sprite.lean ====
section
/-! SUPPORT. The sprite of DXYN (spec/44_display.md R291 to R297): which rows are drawn, what reading them answers,
and that the toggled cells are exactly the covered ones, each listed once. -/

namespace Sys2Proof.Machine

variable (s : State)

theorem spriteWide_iff (n : Nibble) : spriteWide s n = true ↔ s.mode = .high ∧ n = 0#4 := by
  simp [spriteWide]

theorem Mode.width_pos (m : Mode) : 0 < m.width := by cases m <;> decide

theorem Mode.height_pos (m : Mode) : 0 < m.height := by cases m <;> decide

/-- How many rows are drawn: those above the bottom edge (R294). -/
def rowsDrawn (y n : Nibble) : Nat := min (spriteHeight s n) (s.mode.height - spriteY s y)

theorem filter_range_lt (a b : Nat) (p : Nat → Bool) (h : ∀ r, p r = decide (r < b)) :
    (List.range a).filter p = List.range (min a b) := by
  induction a with
  | zero => simp
  | succ a ih =>
    rw [List.range_succ, List.filter_append, ih]
    by_cases hb : a < b
    · rw [show min (a + 1) b = min a b + 1 by omega, List.range_succ]
      simp [h, hb]; omega
    · rw [show min (a + 1) b = min a b by omega]
      simp [h, hb]

theorem visibleRows_eq (y n : Nibble) : visibleRows s y n = List.range (rowsDrawn s y n) := by
  unfold visibleRows rowsDrawn
  apply filter_range_lt
  intro r
  simp only [decide_eq_decide]; omega

/-- The bytes of one row (R297). -/
def rowBytes (n : Nibble) : Nat := if spriteWide s n then 2 else 1

theorem spriteBytes_eq (y n : Nibble) : spriteBytes s y n = rowBytes s n * rowsDrawn s y n := by
  unfold spriteBytes rowBytes rowsDrawn spriteHeight spriteY
  by_cases h : spriteWide s n = true
  · rw [if_pos ((spriteWide_iff s n).1 h), if_pos h, if_pos h]
  · have h' := fun h' => h ((spriteWide_iff s n).2 h')
    rw [if_neg h', if_neg h, if_neg h, Nat.one_mul]

/-- What reading one row answers. -/
theorem spriteRow_eq (n : Nibble) (r : Nat) :
    spriteRow s n r = if s.i.toNat + rowBytes s n * (r + 1) ≤ memSize then .ok (spriteRowBits s n r)
      else .error ⟨.memoryBounds, some (max (s.i.toNat + rowBytes s n * r) memSize)⟩ := by
  unfold spriteRow rowBytes
  by_cases h : spriteWide s n = true
  · rw [if_pos h, if_pos h]
    have hw := (spriteWide_iff s n).1 h
    by_cases h1 : s.i.toNat + 2 * r < 4096
    · by_cases h2 : s.i.toNat + 2 * r + 1 < 4096
      · rw [if_pos (by show _ ≤ 4096; omega), spriteRowBits, if_pos hw]
        simp only [State.memRead, if_pos (show s.i.toNat + 2 * r < memSize from h1),
          if_pos (show s.i.toNat + 2 * r + 1 < memSize from h2)]
        rfl
      · rw [if_neg (by show ¬ _ ≤ 4096; omega)]
        simp only [State.memRead, if_pos (show s.i.toNat + 2 * r < memSize from h1),
          if_neg (show ¬ s.i.toNat + 2 * r + 1 < memSize from h2)]
        have : max (s.i.toNat + 2 * r) 4096 = s.i.toNat + 2 * r + 1 := by omega
        rw [show max (s.i.toNat + 2 * r) memSize = _ from this]
        rfl
    · rw [if_neg (by show ¬ _ ≤ 4096; omega)]
      simp only [State.memRead, if_neg (show ¬ s.i.toNat + 2 * r < memSize from h1)]
      have : max (s.i.toNat + 2 * r) 4096 = s.i.toNat + 2 * r := by omega
      rw [show max (s.i.toNat + 2 * r) memSize = _ from this]
      rfl
  · rw [if_neg h, if_neg h]
    have hw := fun h' => h ((spriteWide_iff s n).2 h')
    by_cases h1 : s.i.toNat + r < 4096
    · rw [if_pos (by show _ ≤ 4096; omega), spriteRowBits, if_neg hw]
      simp only [State.memRead, if_pos (show s.i.toNat + r < memSize from h1)]
      rfl
    · rw [if_neg (by show ¬ _ ≤ 4096; omega)]
      simp only [State.memRead, if_neg (show ¬ s.i.toNat + r < memSize from h1)]
      have : max (s.i.toNat + 1 * r) 4096 = s.i.toNat + r := by omega
      rw [show max (s.i.toNat + 1 * r) memSize = _ from this]
      rfl

theorem rowBytes_pos (n : Nibble) : 0 < rowBytes s n := by unfold rowBytes; split <;> decide

/-- What reading k rows from row r on answers (R294, R376): every row's bits, or the fault at the first byte
outside memory. -/
theorem spriteRows_range' (n : Nibble) (k : Nat) : ∀ r,
    spriteRows s n (List.range' r k) =
      if k = 0 ∨ s.i.toNat + rowBytes s n * (r + k) ≤ memSize then
        .ok ((List.range' r k).map fun r => (r, spriteRowBits s n r))
      else .error ⟨.memoryBounds, some (max (s.i.toNat + rowBytes s n * r) memSize)⟩ := by
  induction k with
  | zero => intro r; rfl
  | succ k ih =>
    intro r
    have hb := rowBytes_pos s n
    rw [List.range'_succ, spriteRows, spriteRow_eq, ih]
    have e1 : rowBytes s n * (r + (k + 1)) = rowBytes s n * r + rowBytes s n * k + rowBytes s n := by ring
    have e2 : rowBytes s n * (r + 1 + k) = rowBytes s n * r + rowBytes s n * k + rowBytes s n := by ring
    have e3 : rowBytes s n * (r + 1) = rowBytes s n * r + rowBytes s n := by ring
    rw [e1, e2, e3]
    have hk : k = 0 ∨ rowBytes s n ≤ rowBytes s n * k := by
      rcases Nat.eq_zero_or_pos k with h | h
      · exact .inl h
      · exact .inr (Nat.le_mul_of_pos_right _ h)
    generalize rowBytes s n * r = a at *
    generalize hb' : rowBytes s n * k = b at *
    have hk0 : k = 0 → b = 0 := fun h => by rw [← hb', h, Nat.mul_zero]
    generalize rowBytes s n = w at *
    by_cases h1 : s.i.toNat + (a + w) ≤ 4096
    · rw [if_pos (show s.i.toNat + (a + w) ≤ memSize from h1)]
      by_cases h2 : s.i.toNat + (a + b + w) ≤ 4096
      · rw [if_pos (.inr (show s.i.toNat + (a + b + w) ≤ memSize from h2)),
          if_pos (.inr (show s.i.toNat + (a + b + w) ≤ memSize from h2))]
        rfl
      · have hk' : k ≠ 0 := fun h => h2 (by have := hk0 h; omega)
        rw [if_neg (show ¬ (k = 0 ∨ s.i.toNat + (a + b + w) ≤ 4096) by omega),
          if_neg (show ¬ (k + 1 = 0 ∨ s.i.toNat + (a + b + w) ≤ 4096) by omega)]
        have : max (s.i.toNat + (a + w)) 4096 = max (s.i.toNat + a) 4096 := by omega
        rw [show max (s.i.toNat + (a + w)) memSize = max (s.i.toNat + a) memSize from this]
        rfl
    · rw [if_neg (show ¬ s.i.toNat + (a + w) ≤ memSize from h1),
        if_neg (show ¬ (k + 1 = 0 ∨ s.i.toNat + (a + b + w) ≤ 4096) by omega)]
      rfl

/-- The rows of a sprite with their bits. -/
def drawnRows (y n : Nibble) : List (Nat × Nat) :=
  (List.range (rowsDrawn s y n)).map fun r => (r, spriteRowBits s n r)

/-- Reading a sprite whose bytes are all in memory. -/
theorem spriteRows_ok {y n : Nibble} (h : SpriteInRange s y n) :
    spriteRows s n (visibleRows s y n) = .ok (drawnRows s y n) := by
  have hb := rowBytes_pos s n
  rw [visibleRows_eq, List.range_eq_range', spriteRows_range', drawnRows, List.range_eq_range', if_pos]
  unfold SpriteInRange at h
  rw [spriteBytes_eq] at h
  rw [Nat.zero_add]
  refine h.imp (fun h => ?_) id
  rcases Nat.mul_eq_zero.1 h with h | h
  · omega
  · exact h

/-- Reading a sprite with a byte outside memory. -/
theorem spriteRows_error {y n : Nibble} (h : ¬ SpriteInRange s y n) :
    spriteRows s n (visibleRows s y n) = .error ⟨.memoryBounds, some (firstOutOfRange s.i.toNat)⟩ := by
  rw [visibleRows_eq, List.range_eq_range', spriteRows_range', if_neg]
  · rw [Nat.mul_zero, Nat.add_zero]; rfl
  · unfold SpriteInRange at h
    rw [spriteBytes_eq] at h
    rw [Nat.zero_add]
    exact fun hc => h (hc.imp (fun e => by rw [e, Nat.mul_zero]) id)

/-- The cells a row toggles. -/
theorem mem_rowCells {x y n : Nibble} {r b j : Nat} : j ∈ rowCells s x y n (r, b) ↔
    ∃ c, c < spriteCols s n ∧ spriteX s x + c < s.mode.width ∧ b.testBit (spriteCols s n - 1 - c) = true ∧
      j = (spriteY s y + r) * s.mode.width + (spriteX s x + c) := by
  simp only [rowCells, List.mem_map, List.mem_filter, List.mem_range, Bool.and_eq_true, decide_eq_true_eq]
  exact ⟨fun ⟨c, ⟨h1, h2, h3⟩, h4⟩ => ⟨c, h1, h2, h3, h4.symm⟩, fun ⟨c, h1, h2, h3, h4⟩ => ⟨c, ⟨h1, h2, h3⟩, h4.symm⟩⟩

/-- A cell's index gives back its row and its column. -/
theorem cell_index_inj {W p q r t : Nat} (hp : p < W) (hq : q < W) (h : r * W + p = t * W + q) : r = t ∧ p = q := by
  have h1 : (r * W + p) / W = r := by
    rw [Nat.mul_comm, Nat.mul_add_div (by omega), Nat.div_eq_of_lt hp, Nat.add_zero]
  have h2 : (t * W + q) / W = t := by
    rw [Nat.mul_comm, Nat.mul_add_div (by omega), Nat.div_eq_of_lt hq, Nat.add_zero]
  have h3 : r = t := by rw [← h1, h, h2]
  subst h3
  exact ⟨rfl, by omega⟩

theorem rowCells_nodup (x y n : Nibble) (row : Nat × Nat) : (rowCells s x y n row).Nodup := by
  unfold rowCells
  refine List.Nodup.map_on ?_ (List.Nodup.filter _ List.nodup_range)
  intro c _ d _ h
  omega

/-- Every cell is toggled at most once (R291). -/
theorem spriteCells_nodup (x y n : Nibble) : (spriteCells s x y n (drawnRows s y n)).Nodup := by
  unfold spriteCells drawnRows
  rw [List.nodup_flatMap]
  refine ⟨fun row _ => rowCells_nodup s x y n row, ?_⟩
  rw [List.pairwise_map]
  refine List.Pairwise.imp ?_ List.nodup_range
  intro a b hab j ha hb
  obtain ⟨c, _, h1, _, e1⟩ := (mem_rowCells s).1 ha
  obtain ⟨d, _, h2, _, e2⟩ := (mem_rowCells s).1 hb
  have := (cell_index_inj h1 h2 (e1.symm.trans e2)).1
  omega

/-- The toggled cells are the covered ones. -/
theorem mem_spriteCells {x y n : Nibble} {px py : Nat} (hx : px < s.mode.width) (hy : py < s.mode.height) :
    py * s.mode.width + px ∈ spriteCells s x y n (drawnRows s y n) ↔ spriteCovers s x y n px py = true := by
  have hcols : (if s.mode = .high ∧ n = 0#4 then 16 else 8) = spriteCols s n := by
    unfold spriteCols spriteWide; simp
  have hrows : (if s.mode = .high ∧ n = 0#4 then 16 else n.toNat) = spriteHeight s n := by
    unfold spriteHeight spriteWide; simp
  unfold spriteCovers
  simp only [Bool.and_eq_true, decide_eq_true_eq, hcols, hrows]
  simp only [spriteCells, drawnRows, List.mem_flatMap, List.mem_map, List.mem_range]
  change _ ↔ ((spriteX s x ≤ px ∧ px < spriteX s x + spriteCols s n) ∧
    (spriteY s y ≤ py ∧ py < spriteY s y + spriteHeight s n)) ∧ _
  constructor
  · rintro ⟨_, ⟨r, hr, rfl⟩, hj⟩
    obtain ⟨c, h1, h2, h3, h4⟩ := (mem_rowCells s).1 hj
    obtain ⟨e1, e2⟩ := cell_index_inj hx h2 h4
    have hr' : r < spriteHeight s n := by unfold rowsDrawn at hr; omega
    refine ⟨⟨⟨by omega, by omega⟩, by omega, by omega⟩, ?_⟩
    show (spriteRowBits s n (py - spriteY s y)).testBit (spriteCols s n - 1 - (px - spriteX s x)) = true
    rw [show py - spriteY s y = r by omega, show px - spriteX s x = c by omega]
    exact h3
  · rintro ⟨⟨⟨h1, h2⟩, h3, h4⟩, h5⟩
    refine ⟨_, ⟨py - spriteY s y, ?_, rfl⟩, (mem_rowCells s).2 ⟨px - spriteX s x, by omega, by omega, h5, ?_⟩⟩
    · unfold rowsDrawn; omega
    · rw [show spriteY s y + (py - spriteY s y) = py by omega, show spriteX s x + (px - spriteX s x) = px by omega]

/-- Every toggled cell is a cell of the framebuffer. -/
theorem spriteCells_cell {x y n : Nibble} {j : Nat} (hj : j ∈ spriteCells s x y n (drawnRows s y n)) :
    ∃ px py, px < s.mode.width ∧ py < s.mode.height ∧ j = py * s.mode.width + px := by
  simp only [spriteCells, drawnRows, List.mem_flatMap, List.mem_map, List.mem_range] at hj
  obtain ⟨_, ⟨r, hr, rfl⟩, hj⟩ := hj
  obtain ⟨c, _, h2, _, h4⟩ := (mem_rowCells s).1 hj
  exact ⟨_, _, h2, by unfold rowsDrawn at hr; omega, h4⟩

/-- A cell's index is inside a framebuffer of W*H cells (R50). -/
theorem cell_index_lt {W H px py : Nat} (hx : px < W) (hy : py < H) : py * W + px < W * H :=
  calc py * W + px < py * W + W := by omega
    _ = (py + 1) * W := by ring
    _ ≤ H * W := Nat.mul_le_mul_right _ hy
    _ = W * H := Nat.mul_comm _ _

end Sys2Proof.Machine
end

