-- ==== Sys2Proof/Laws/Step.lean ====
section
/-! SUPPORT. What one step can do, said once (spec/40_step_cycle.md R160 to R166), and what withFetchWord
leaves to fetch. -/

namespace Sys2Proof.Machine

/-- The word fetch reads is the word at `pc` (R84). -/
theorem State.fetch_wordAtPc {s : State} (h : s.fetchInRange) : s.fetch = .ok s.wordAtPc := by
  rw [State.fetch_ok h]
  congr 1
  apply BitVec.eq_of_toNat_eq
  rw [opcodeOf_toNat, State.wordAtPc, BitVec.toNat_ofNat]
  omega

/-- The four ways a step ends: nothing while halted; a fetch fault; a decode fault; one instruction. -/
theorem step_cases {s t : State} (h : step s = .next t) :
    (s.status ≠ .running ∧ t = s) ∨
    (s.status = .running ∧ ¬ s.fetchInRange ∧
      t = s.takeFault ⟨.memoryBounds, some (max s.pc.toNat memSize)⟩ none) ∨
    (s.status = .running ∧ s.fetchInRange ∧ ∃ e, decode s.quirks.extendedOpcodes s.wordAtPc = .error e ∧
      t = s.takeFault ⟨.fatalDecode, none⟩ (some s.wordAtPc)) ∨
    (s.status = .running ∧ s.fetchInRange ∧ ∃ i, decode s.quirks.extendedOpcodes s.wordAtPc = .ok i ∧
      exec i s = .next t) := by
  unfold step at h
  cases hs : s.status with
  | terminated => rw [hs] at h; cases h; exact .inl ⟨by simp, rfl⟩
  | faulted => rw [hs] at h; cases h; exact .inl ⟨by simp, rfl⟩
  | running =>
    rw [hs] at h
    refine .inr ?_
    by_cases hf : s.fetchInRange
    · simp only [State.fetch_wordAtPc hf] at h
      cases hd : decode s.quirks.extendedOpcodes s.wordAtPc with
      | error e => rw [hd] at h; cases h; exact .inr (.inl ⟨rfl, hf, e, rfl, rfl⟩)
      | ok i => rw [hd] at h; exact .inr (.inr ⟨rfl, hf, i, rfl, h⟩)
    · simp only [State.fetch_error hf] at h
      cases h
      exact .inl ⟨rfl, hf, rfl⟩

/-- The instruction a step runs, when its word decodes. -/
theorem step_of_decode {s : State} {i : Instr} (hs : s.status = .running) (hf : s.fetchInRange)
    (hd : decode s.quirks.extendedOpcodes s.wordAtPc = .ok i) : step s = exec i s := by
  simp only [step, hs, State.fetch_wordAtPc hf, hd]

/-- A placed word is the word at `pc`. -/
theorem State.wordAtPc_withFetchWord {s : State} {w : Nat} (h : s.fetchInRange) (hw : w < 2 ^ 16) :
    (s.withFetchWord 16 w).wordAtPc = BitVec.ofNat 16 w := by
  have h' : s.pc.toNat + 1 < memSize := h
  simp only [State.withFetchWord, if_pos h', State.wordAtPc, State.storeByte_pc, State.byteAt_storeByte]
  apply BitVec.eq_of_toNat_eq
  simp [BitVec.extractLsb'_toNat, Nat.shiftRight_eq_div_pow]
  omega

end Sys2Proof.Machine
end

