-- ==== Sys2Proof/Tests/Slice0.lean ====
section
/-! SUPPORT. Tests of the model against the vectors of spec/95_test_vectors.md (each test names its vector; W, S, A,
CT, M, TM, KY, KW, DS, Y and RS are the spec's own numbers), the decoding of words written out from the patterns of
spec/30_encoding.md R124, the checks of WellFormed, and a witness for every statement that has hypotheses. -/

namespace Sys2Proof.Tests

open Sys2Proof Sys2Proof.Machine

/-- The constructed machine of a variant with bytes at 0x200 and register values. -/
def start (v : Variant) (bytes : List Byte) (regs : List (Nibble × Byte)) : State :=
  regs.foldl (fun s p => s.setV p.1 p.2) ((State.construct (defaultConfig v)).storeBytes 0x200 bytes)

/-- The state an outcome answers, or the one given. -/
def nextOr (s : State) : Result → State
  | .next t => t
  | .fault _ => s
  | .refused _ => s

/-- One step. -/
def run (s : State) : State := nextOr s (step s)

/-- One host operation. -/
def host (op : HostOp) (s : State) : State := nextOr s (hostStep op s)

/-- Some registers of a state. -/
def regs (s : State) (xs : List Nibble) : List Byte := xs.map s.getV

/-- n bytes of memory from an address on. -/
def bytesAt (s : State) (a n : Nat) : List Byte := (List.range n).map fun k => s.byteAt (a + k)

/-- A machine in high resolution. -/
def startHigh (bytes : List Byte) (rs : List (Nibble × Byte)) : State :=
  (start .extended bytes rs).setDisplay .high (blankCells .high)

/-! ## WellFormed: the terms it refuses (R130) -/

theorem test_wf_scd_refused_in_base : (Instr.scd 4).wellFormed .base = false := by decide
theorem test_wf_scr_refused_in_base : Instr.scr.wellFormed .base = false := by decide
theorem test_wf_scl_refused_in_base : Instr.scl.wellFormed .base = false := by decide
theorem test_wf_exit_refused_in_base : Instr.exit.wellFormed .base = false := by decide
theorem test_wf_low_refused_in_base : Instr.low.wellFormed .base = false := by decide
theorem test_wf_high_refused_in_base : Instr.high.wellFormed .base = false := by decide
theorem test_wf_ldHf_refused_in_base : (Instr.ldHf 2).wellFormed .base = false := by decide
theorem test_wf_accepts : (Instr.drw 0 1 5).wellFormed .base = true ∧ Instr.exit.wellFormed .extended = true := by decide
theorem test_wf_config_default : (defaultConfig .base).wellFormed = true := by decide
theorem test_wf_config_overlap_refused : { defaultConfig .base with fontHiBase := 79 }.wellFormed = false := by decide
theorem test_wf_config_above_load_refused :
    { defaultConfig .base with fontHiBase := 0x200 - 99 }.wellFormed = false := by decide

/-! ## Decoding: a word for every row, from the patterns of R124 -/

theorem test_decode_family0 : [0x00E0#16, 0x00EE#16, 0x00C4#16, 0x00FB#16, 0x00FC#16, 0x00FD#16, 0x00FE#16,
    0x00FF#16].map (decode true) =
    [.ok .cls, .ok .ret, .ok (.scd 4), .ok .scr, .ok .scl, .ok .exit, .ok .low, .ok .high] := by decide
theorem test_decode_families1to7 : [0x1ABC#16, 0x2ABC#16, 0x3A12#16, 0x4A12#16, 0x5AB0#16, 0x6A12#16, 0x7A12#16].map
    (decode false) = [.ok (.jp 0xABC), .ok (.call 0xABC), .ok (.seImm 0xA 0x12), .ok (.sneImm 0xA 0x12),
    .ok (.seReg 0xA 0xB), .ok (.ldImm 0xA 0x12), .ok (.addImm 0xA 0x12)] := by decide
theorem test_decode_family8 : [0x8AB0#16, 0x8AB1#16, 0x8AB2#16, 0x8AB3#16, 0x8AB4#16, 0x8AB5#16, 0x8AB6#16, 0x8AB7#16,
    0x8ABE#16].map (decode false) = [.ok (.ldReg 0xA 0xB), .ok (.or 0xA 0xB), .ok (.and 0xA 0xB), .ok (.xor 0xA 0xB),
    .ok (.addReg 0xA 0xB), .ok (.sub 0xA 0xB), .ok (.shr 0xA 0xB), .ok (.subn 0xA 0xB), .ok (.shl 0xA 0xB)] := by decide
theorem test_decode_families9toE : [0x9AB0#16, 0xAABC#16, 0xBABC#16, 0xCA12#16, 0xDABC#16, 0xEA9E#16, 0xEAA1#16].map
    (decode false) = [.ok (.sneReg 0xA 0xB), .ok (.ldI 0xABC), .ok (.jpOff 0xABC), .ok (.rnd 0xA 0x12),
    .ok (.drw 0xA 0xB 0xC), .ok (.skp 0xA), .ok (.sknp 0xA)] := by decide
theorem test_decode_familyF : [0xFA07#16, 0xFA0A#16, 0xFA15#16, 0xFA18#16, 0xFA1E#16, 0xFA29#16, 0xFA30#16, 0xFA33#16,
    0xFA55#16, 0xFA65#16].map (decode true) = [.ok (.ldFromDt 0xA), .ok (.ldK 0xA), .ok (.ldDt 0xA), .ok (.ldSt 0xA),
    .ok (.addI 0xA), .ok (.ldF 0xA), .ok (.ldHf 0xA), .ok (.ldB 0xA), .ok (.ldStore 0xA), .ok (.ldLoad 0xA)] := by decide
/-- S5, S6, S7, S9. -/
theorem test_decode_illegal : ([0x5011#16, 0x8008#16, 0x800F#16, 0x9011#16, 0xE000#16, 0xF000#16, 0xF075#16, 0xF085#16,
    0x0123#16, 0x00FA#16, 0x0000#16].map (decode true)) = [.error .family5, .error .family8, .error .family8,
    .error .family9, .error .familyE, .error .familyF, .error .familyF, .error .familyF, .error .family0,
    .error .family0, .error .family0] := by decide
/-- S8. -/
theorem test_decode_extended_only : [0x00FD#16, 0x00C4#16, 0x00FB#16, 0x00FC#16, 0x00FE#16, 0x00FF#16, 0xF030#16].map
    (decode false) = List.replicate 7 (.error .extendedOnly) := by decide
/-- The program P1's bytes, decoded one instruction after another (R84, R136). -/
theorem test_decode_bytes : decodeBytes false [0x60, 0x05, 0x61, 0x03, 0x80, 0x14] =
    .ok (.ldImm 0 5, [0x61, 0x03, 0x80, 0x14]) ∧ decodeBytes false [0x60] = .error .truncated := by decide
theorem test_decode_table_word : decodeTableWord 16 0xD125 = some (.drw 1 2 5) ∧ decodeTableWord 16 0x0001 = none := by
  decide
theorem test_encode : [encode (.scd 4), encode (.jp 0xABC), encode (.drw 1 2 5), encode (.ldHf 2)] =
    [0x00C4#16, 0x1ABC#16, 0xD125#16, 0xF230#16] := by decide

/-! ## The step (T1) -/

theorem test_s1_s2_fetch_at_the_end : (run (((start .base [] []).storeBytes 0xFFE [0x60, 7]).setPc 0xFFE)).pc = 0x1000#16 ∧
    (run ((start .base [] []).setPc 0x1000)).fault = some ⟨.memoryBounds, none, 0x1000#16, some 0x1000⟩ := by decide
theorem test_s3_second_byte_out_of_range :
    (run ((start .base [] []).setPc 0xFFF)).fault = some ⟨.memoryBounds, none, 0xFFF#16, some 0x1000⟩ := by decide
theorem test_s4_odd_pc : let t := run (((start .base [] []).storeBytes 0x201 [0x61, 0x2A]).setPc 0x201)
    t.getV 1 = 0x2A#8 ∧ t.pc = 0x203#16 := by decide
theorem test_s5_illegal_word : let t := run (start .base [0x50, 0x11] [])
    t.status = .faulted ∧ t.fault = some ⟨.fatalDecode, some 0x5011#16, 0x200#16, none⟩ ∧ t.pc = 0x200#16 := by decide
theorem test_s10_halted : let t := run ((start .base [0x60, 0x07] []).setStatus .terminated)
    t.getV 0 = 0 ∧ t.pc = 0x200#16 ∧ t.status = .terminated := by decide
theorem test_withFetchWord_runs : (run (State.reset.withFetchWord 16 0x6A12)).getV 0xA = 0x12#8 ∧
    (run (State.reset.withFetchWord 16 0x6A12)).pc = 0x202#16 := by decide
/-- Nothing loaded: 0x200 reads 0x0000, which is ILLEGAL (notes/assumptions/3.md). -/
theorem test_nothing_loaded : (run State.reset).fault = some ⟨.fatalDecode, some 0#16, 0x200#16, none⟩ := by decide

/-! ## The ALU (T2) -/

theorem test_ldImm : regs (run (start .base [0x6A, 0xFF] [])) [0xA, 0xF] = [0xFF, 0] := by decide
/-- A2, A3. -/
theorem test_addImm : regs (run (start .base [0x70, 0xFF] [(0, 5), (0xF, 0x5A)])) [0, 0xF] = [4, 0x5A] ∧
    regs (run (start .base [0x70, 1] [(0, 0xFF)])) [0, 0xF] = [0, 0] := by decide
theorem test_ldReg : regs (run (start .base [0x80, 0x10] [(1, 0x7A)])) [0, 1] = [0x7A, 0x7A] := by decide
/-- A5, A8. -/
theorem test_or : regs (run (start .base [0x80, 0x11] [(0, 0x0F), (1, 0xF0), (0xF, 1)])) [0, 0xF] = [0xFF, 0] ∧
    regs (run (start .extended [0x80, 0x11] [(0, 0x0F), (1, 0xF0), (0xF, 1)])) [0, 0xF] = [0xFF, 1] ∧
    (run (start .base [0x8F, 0x01] [(0, 0xF0), (0xF, 0x0F)])).getV 0xF = 0 ∧
    (run (start .extended [0x8F, 0x01] [(0, 0xF0), (0xF, 0x0F)])).getV 0xF = 0xFF := by decide
/-- A6. -/
theorem test_and : regs (run (start .base [0x80, 0x12] [(0, 0x3C), (1, 0x0F), (0xF, 1)])) [0, 0xF] = [0x0C, 0] ∧
    regs (run (start .extended [0x80, 0x12] [(0, 0x3C), (1, 0x0F), (0xF, 1)])) [0, 0xF] = [0x0C, 1] := by decide
/-- A7. -/
theorem test_xor : regs (run (start .base [0x80, 0x03] [(0, 0x55), (0xF, 1)])) [0, 0xF] = [0, 0] ∧
    regs (run (start .extended [0x80, 0x03] [(0, 0x55), (0xF, 1)])) [0, 0xF] = [0, 1] := by decide
/-- A9, A12, A15. -/
theorem test_addReg : regs (run (start .base [0x80, 0x14] [(0, 0xFF), (1, 1)])) [0, 0xF] = [0, 1] ∧
    regs (run (start .base [0x80, 0x14] [(0, 0xF0), (1, 0x0F)])) [0, 0xF] = [0xFF, 0] ∧
    regs (run (start .base [0x80, 0x04] [(0, 0x81)])) [0, 0xF] = [2, 1] := by decide
/-- A13, A14. -/
theorem test_addReg_vf : (run (start .base [0x8F, 0x14] [(0xF, 0xFF), (1, 1)])).getV 0xF = 1 ∧
    regs (run (start .base [0x80, 0xF4] [(0, 0x10), (0xF, 1)])) [0, 0xF] = [0x11, 0] := by decide
/-- A16, A17, A19. -/
theorem test_sub : regs (run (start .base [0x80, 0x15] [(0, 3), (1, 5)])) [0, 0xF] = [0xFE, 0] ∧
    regs (run (start .base [0x80, 0x15] [(0, 5), (1, 5)])) [0, 0xF] = [0, 1] ∧
    (run (start .base [0x8F, 0x15] [(0xF, 0x10), (1, 1)])).getV 0xF = 1 := by decide
/-- A20, A21, A22. -/
theorem test_subn : regs (run (start .base [0x80, 0x17] [(0, 3), (1, 5)])) [0, 0xF] = [2, 1] ∧
    regs (run (start .base [0x80, 0x17] [(0, 5), (1, 3)])) [0, 0xF] = [0xFE, 0] ∧
    regs (run (start .base [0x80, 0x07] [(0, 0x42)])) [0, 0xF] = [0, 1] := by decide
/-- A23. -/
theorem test_shr : regs (run (start .base [0x80, 0x16] [(0, 0x81), (1, 3)])) [0, 1, 0xF] = [1, 3, 1] ∧
    regs (run (start .extended [0x80, 0x16] [(0, 0x81), (1, 3)])) [0, 1, 0xF] = [0x40, 3, 1] := by decide
/-- A25. -/
theorem test_shr_vf : (run (start .base [0x8F, 0x06] [(0xF, 3), (0, 0x80)])).getV 0xF = 0 ∧
    (run (start .extended [0x8F, 0x06] [(0xF, 3), (0, 0x80)])).getV 0xF = 1 := by decide
/-- A26, A27. -/
theorem test_shl : regs (run (start .base [0x80, 0x1E] [(0, 0x81), (1, 0x40)])) [0, 0xF] = [0x80, 0] ∧
    regs (run (start .extended [0x80, 0x1E] [(0, 0x81), (1, 0x40)])) [0, 0xF] = [2, 1] ∧
    regs (run (start .base [0x80, 0x1E] [(0, 0x7F), (1, 0x80)])) [0, 0xF] = [0, 1] ∧
    regs (run (start .extended [0x80, 0x1E] [(0, 0x7F), (1, 0x80)])) [0, 0xF] = [0xFE, 0] := by decide
/-- A29 (any random byte), and A30's destination: the draw itself. -/
theorem test_rnd_mask0 : (run (start .base [0xC3, 0x00] [(3, 9)])).getV 3 = 0 := by
  show Config.randomByte 0 &&& 0#8 = 0#8
  simp
theorem test_rnd_draws : (run (start .base [0xC3, 0xFF] [])).draws = 1 := rfl

/-! ## Control transfer (T3) -/

theorem test_jp : (run (start .base [0x12, 0x34] [])).pc = 0x234#16 := by decide
/-- CT2. -/
theorem test_call : let t := run (((start .base [] []).storeBytes 0x204 [0x22, 0x10]).setPc 0x204)
    t.stack[0] = 0x206#16 ∧ t.sp.val = 1 ∧ t.pc = 0x210#16 := by decide
/-- CT5. -/
theorem test_call_full : let t := run { start .base [0x23, 0x00] [] with sp := 16 }
    t.fault = some ⟨.stackOverflow, some 0x2300#16, 0x200#16, none⟩ ∧ t.sp.val = 16 ∧ t.pc = 0x200#16 := by decide
/-- CT3. -/
theorem test_ret : let s := start .base [0x00, 0xEE] []
    let t := run { s with stack := s.stack.set 0 0x206#16, sp := 1 }
    t.pc = 0x206#16 ∧ t.sp.val = 0 ∧ t.stack[0] = 0x206#16 := by decide
/-- CT4. -/
theorem test_ret_empty : let t := run (start .base [0x00, 0xEE] [])
    t.fault = some ⟨.stackUnderflow, some 0x00EE#16, 0x200#16, none⟩ ∧ t.pc = 0x200#16 := by decide
/-- CT6, CT7. -/
theorem test_jpOff : (run (start .base [0xB2, 0x10] [(0, 5), (2, 3)])).pc = 0x215#16 ∧
    (run (start .extended [0xB2, 0x10] [(0, 5), (2, 3)])).pc = 0x213#16 ∧
    (run (start .base [0xBF, 0xFF] [(0, 0xFF)])).pc = 0x10FE#16 := by decide
/-- CT9, CT10. -/
theorem test_seImm : (run (start .base [0x31, 0x00] [])).pc = 0x204#16 ∧
    (run (start .base [0x31, 0x08] [(1, 7)])).pc = 0x202#16 := by decide
/-- CT11, CT12. -/
theorem test_sneImm : (run (start .base [0x41, 0x07] [(1, 7)])).pc = 0x202#16 ∧
    (run (start .base [0x41, 0x08] [(1, 7)])).pc = 0x204#16 := by decide
/-- CT13, and an unequal pair. -/
theorem test_seReg : (run (start .base [0x50, 0x10] [(0, 9), (1, 9)])).pc = 0x204#16 ∧
    (run (start .base [0x50, 0x10] [(0, 9)])).pc = 0x202#16 := by decide
/-- CT15, CT16. -/
theorem test_sneReg : (run (start .base [0x90, 0x10] [(0, 1), (1, 2)])).pc = 0x204#16 ∧
    (run (start .base [0x90, 0x00] [])).pc = 0x202#16 := by decide

/-! ## The index register and memory (T4) -/

theorem test_ldI : (run (start .base [0xA3, 0x00] [])).i = 0x300#16 := by decide
/-- M2, M3. -/
theorem test_addI : (let t := run ((start .base [0xF0, 0x1E] [(0, 2), (0xF, 0x77)]).setI 0xFFF)
    t.i = 0x1001#16 ∧ t.getV 0xF = 0x77) ∧
    (run ((start .base [0xF0, 0x1E] [(0, 2)]).setI 0xFFFF)).i = 1#16 := by decide
/-- M4, M5. -/
theorem test_ldF : (run (start .base [0xF1, 0x29] [(1, 5)])).i = 0x019#16 ∧
    (run (start .base [0xF1, 0x29] [(1, 0x1A)])).i = 0x032#16 := by decide
/-- M6, M7; and W8's kind of fault in Base. -/
theorem test_ldHf : (run (start .extended [0xF2, 0x30] [(2, 3)])).i = 0x11E#16 ∧
    (run (start .extended [0xF2, 0x30] [(2, 9)])).i = 0x15A#16 ∧
    (run (start .base [0xF2, 0x30] [])).fault = some ⟨.fatalDecode, some 0xF230#16, 0x200#16, none⟩ := by decide
/-- M8 and the source's 255. -/
theorem test_ldB : bytesAt (run ((start .base [0xF0, 0x33] [(0, 254)]).setI 0x300)) 0x300 3 = [2, 5, 4] ∧
    bytesAt (run ((start .base [0xF0, 0x33] [(0, 255)]).setI 0x300)) 0x300 3 = [2, 5, 5] := by decide
/-- M10. -/
theorem test_ldB_fault : let t := run ((start .base [0xF0, 0x33] [(0, 254)]).setI 0xFFE)
    t.fault = some ⟨.memoryBounds, some 0xF033#16, 0x200#16, some 0x1000⟩ ∧ bytesAt t 0xFFE 2 = [0, 0] := by decide
/-- M11. -/
theorem test_ldStore : (let t := run ((start .base [0xF1, 0x55] [(0, 1), (1, 2), (2, 3)]).setI 0x300)
    bytesAt t 0x300 3 = [1, 2, 0] ∧ t.i = 0x302#16) ∧
    (run ((start .extended [0xF1, 0x55] [(0, 1)]).setI 0x300)).i = 0x300#16 := by decide
/-- M13. -/
theorem test_ldStore_fault : let t := run ((start .base [0xF1, 0x55] [(0, 1), (1, 2)]).setI 0xFFF)
    t.fault = some ⟨.memoryBounds, some 0xF155#16, 0x200#16, some 0x1000⟩ ∧ t.byteAt 0xFFF = 0 ∧ t.i = 0xFFF#16 := by
  decide
/-- M14. -/
theorem test_ldLoad : (let t := run (((start .base [0xF2, 0x65] [(3, 9)]).storeBytes 0x300 [2, 5, 4, 7]).setI 0x300)
    regs t [0, 1, 2, 3] = [2, 5, 4, 9] ∧ t.i = 0x303#16) ∧
    (run ((start .extended [0xF2, 0x65] []).setI 0x300)).i = 0x300#16 := by decide
/-- M15. -/
theorem test_ldLoad_all : let bs : List Byte := [0, 1, 2, 3, 4, 5, 6, 7, 8, 9, 10, 11, 12, 13, 14, 15]
    let t := run (((start .base [0xFF, 0x65] []).storeBytes 0x300 bs).setI 0x300)
    t.v.toList = bs ∧ t.i = 0x310#16 := by decide

/-! ## Timers and keys (T5, T8) -/

theorem test_ldDt : (run (start .base [0xF0, 0x15] [(0, 60)])).dt = 60 := by decide
theorem test_ldSt : let t := run (start .base [0xF0, 0x18] [(0, 2)])
    t.st = 2 ∧ t.events = [] := by decide
theorem test_ldFromDt : (run ((start .base [0xF3, 0x07] []).setDt 0x3C)).getV 3 = 0x3C := by decide
/-- KY1, KY2, KY4. -/
theorem test_skp : (run ((start .base [0xE2, 0x9E] [(2, 4)]).pressKey 4 true)).pc = 0x204#16 ∧
    (run (start .base [0xE2, 0x9E] [(2, 4)])).pc = 0x202#16 ∧
    (run (start .base [0xE2, 0x9E] [(2, 0x10)])).fault = some ⟨.keyIndex, some 0xE29E#16, 0x200#16, some 16⟩ := by decide
/-- KY3, KY5. -/
theorem test_sknp : (run (start .base [0xE2, 0xA1] [(2, 4)])).pc = 0x204#16 ∧
    (run (((start .base [0xE2, 0xA1] [(2, 3)]).pressKey 3 true).pressKey 3 false)).pc = 0x204#16 := by decide
/-- KW1, KW2. -/
theorem test_ldK_waits : (run (start .base [0xF3, 0x0A] [])).pc = 0x200#16 ∧
    (run ((start .base [0xF3, 0x0A] []).pressKey 7 true)).pc = 0x200#16 := by decide
/-- KW3, KW6. -/
theorem test_ldK : (let t := run (((start .base [0xF3, 0x0A] []).pressKey 7 true).pressKey 7 false)
    t.getV 3 = 7 ∧ t.pc = 0x202#16 ∧ t.prevKey[7] = true) ∧
    (run (((((start .base [0xF3, 0x0A] []).pressKey 9 true).pressKey 3 true).pressKey 9 false).pressKey 3 false)).getV 3 =
      3 := by decide
/-- KW7. -/
theorem test_setKey_per_key : let t := (((start .base [] []).pressKey 2 true).pressKey 2 false).pressKey 5 true
    t.key[2] = false ∧ t.prevKey[2] = true := by decide
/-- KW8. -/
theorem test_setKey_16 : hostStep (.setKey 16 true) (start .base [] []) = .refused (.setKeyOutOfRange 16) := rfl
/-- TM4, TM5, TM6. -/
theorem test_tick : let s := host .tick (((start .base [] []).setDt 1).setSt 2)
    (s.dt, s.st, s.events) = (0, 1, [.startBeep]) ∧
    (host .tick s).events = [.startBeep, .startBeep, .stopBeep] ∧
    (host .tick (host .tick s)).events = [.startBeep, .startBeep, .stopBeep, .stopBeep] := by decide

/-! ## The display (T6) -/

/-- After DS2: the top row of glyph 5 (F0), its origin taken modulo the size; DS7's first draw: a set cell is unset
again and VF is 1. -/
theorem test_drw : (let t := run ((start .base [0xD0, 0x11] [(0, 66), (1, 32)]).setI 0x19)
    [t.cell 1 0, t.cell 2 0, t.cell 5 0, t.cell 6 0] = [false, true, true, false]) ∧
    (let s := (start .base [0xD0, 0x11] []).setI 0x300
    let t := run ((s.storeByte 0x300 0x80).setDisplay .low (s.fb.set 0 true))
    t.cell 0 0 = false ∧ t.getV 0xF = 1) := by decide
/-- After DS14: row 0 of the 16x16 glyph 9 (3C, 7E). -/
theorem test_drw_wide : let t := run ((startHigh [0xD0, 0x10] []).setI 0x15A)
    [t.cell 1 0, t.cell 2 0, t.cell 8 0, t.cell 9 0] = [false, true, false, true] := by decide +kernel
/-- DS10. -/
theorem test_cls : let s := start .base [0x00, 0xE0] []
    (run (s.setDisplay .low (s.fb.set 77 true))).cell 13 1 = false := by decide
/-- DS11; W8 is the fault in Base. -/
theorem test_low : (let t := run (startHigh [0x00, 0xFE] [])
    t.mode = .low ∧ t.fb.length = 2048) ∧ (run (start .base [0x00, 0xFE] [])).status = .faulted := by decide +kernel
theorem test_high : (let t := run (start .extended [0x00, 0xFF] [])
    t.mode = .high ∧ t.fb.length = 8192) ∧ (let t := run (start .base [0x00, 0xFF] [])
    t.fault = some ⟨.fatalDecode, some 0x00FF#16, 0x200#16, none⟩ ∧ t.mode = .low) := by decide +kernel

/-! ## System instructions (T7) -/

/-- Y1. -/
theorem test_exit : let t := run (start .extended [0x00, 0xFD] [])
    t.status = .terminated ∧ t.pc = 0x202#16 ∧ t.fault = none := by decide
/-- Y3, S11. -/
theorem test_scd : let t := run (start .extended [0x00, 0xC4] [])
    t.events = [.diagnostic 0x00C4#16 0x200#16] ∧ t.pc = 0x202#16 := by decide
/-- Y2. -/
theorem test_scr : (run (start .extended [0x00, 0xFB] [])).events = [.diagnostic 0x00FB#16 0x200#16] := by decide
theorem test_scl : (run (start .extended [0x00, 0xFC] [])).events = [.diagnostic 0x00FC#16 0x200#16] := by decide

/-! ## Reset and Load (T9) -/

/-- RS1, RS2. -/
theorem test_reset_glyphs : bytesAt (State.construct (defaultConfig .base)) 0 5 = [0xF0, 0x90, 0x90, 0x90, 0xF0] ∧
    (State.construct (defaultConfig .base)).byteAt 0x100 = 0 ∧
    bytesAt State.reset 0x100 10 = [0x3C, 0x7E, 0xE7, 0xC3, 0xC3, 0xC3, 0xC3, 0xE7, 0x7E, 0x3C] := by decide
/-- M16 and RS3: a program overwrites a glyph, and Reset restores it. -/
theorem test_reset_restores_glyph : let t := run (start .base [0xF0, 0x55] [(0, 0xFF)])
    t.byteAt 0 = 0xFF ∧ (host .reset t).byteAt 0 = 0xF0 ∧ (host .reset t).status = .running := by decide
/-- RS4. -/
theorem test_load : bytesAt (host (.load [0x12, 0x00]) State.reset) 0x200 2 = [0x12, 0x00] := by decide

/-! ## Witnesses: a state and operands that meet each statement's hypotheses

A statement with several clauses has one for each, at a boundary value. -/

/-- The machine used by most witnesses: ADD V0, V1 at 0x200. -/
def sample : State := start .base [0x80, 0x14] [(0, 0xFF), (1, 1)]

theorem witness_DecodeOfEncode : (Instr.drw 0 1 5).wellFormed .base = true ∧ (Instr.ldHf 2).wellFormed .extended = true := by
  decide
theorem witness_EncodeOfDecode : decode (quirksOf .base).extendedOpcodes 0xFF65#16 = .ok (.ldLoad 0xF) ∧
    decode (quirksOf .extended).extendedOpcodes 0x00CF#16 = .ok (.scd 0xF) := by decide
/-- One word for each clause, at the first word of the family or the last. -/
theorem witness_IllegalSubcodes : (0x00FF#16).toNat / 4096 = 0 ∧ (0x5FFF#16).toNat / 4096 = 5 ∧
    (0x9000#16).toNat / 4096 = 9 ∧ (0x8FFF#16).toNat / 4096 = 8 ∧ (0xE000#16).toNat / 4096 = 0xE ∧
    (0xFFFF#16).toNat / 4096 = 0xF ∧ (0xDFFF#16).toNat / 4096 ∈ [1, 2, 3, 4, 6, 7, 0xA, 0xB, 0xC, 0xD] := by decide
theorem witness_StepRunsDecodedInstruction : sample.status = .running ∧ sample.fetchInRange ∧
    decode sample.quirks.extendedOpcodes sample.wordAtPc = .ok (.addReg 0 1) :=
  ⟨by decide, by unfold State.fetchInRange; decide, by decide⟩
theorem witness_FetchRule : (sample.setPc 0xFFE).fetchInRange ∧ (sample.setPc 0xFFF).status = .running ∧
    ¬ (sample.setPc 0xFFF).fetchInRange ∧ ¬ (sample.setPc 0x1000).fetchInRange :=
  ⟨by unfold State.fetchInRange; decide, by decide, by unfold State.fetchInRange; decide,
    by unfold State.fetchInRange; decide⟩
theorem witness_IllegalWordFaults : (start .base [0x50, 0x11] []).status = .running ∧
    (start .base [0x50, 0x11] []).fetchInRange ∧
    decode (start .base [0x50, 0x11] []).quirks.extendedOpcodes (start .base [0x50, 0x11] []).wordAtPc = .error .family5 :=
  ⟨by decide, by unfold State.fetchInRange; decide, by decide⟩
theorem witness_FaultsArePrecise : (start .base [0x00, 0xEE] []).status = .running ∧
    ∃ t, step (start .base [0x00, 0xEE] []) = .next t ∧ t.status = .faulted :=
  ⟨by decide, _, rfl, rfl⟩
theorem witness_ExtendedOnlyFaultsInBase : (∃ x, Instr.ldHf 2 = .ldHf x) ∧
    (start .base [0xF2, 0x30] []).cfg.variant = .base ∧ (start .base [0xF2, 0x30] []).status = .running ∧
    (start .base [0xF2, 0x30] []).fetchInRange ∧ (start .base [0xF2, 0x30] []).wordAtPc = encode (.ldHf 2) ∧
    decode false 0x8014 = .ok (.addReg 0 1) :=
  ⟨⟨2, rfl⟩, by decide, by decide, by unfold State.fetchInRange; decide, by decide, by decide⟩
theorem witness_ByteAccessRule : sample.memRead 4095 = .ok 0#8 ∧
    sample.memRead 4096 = .error ⟨.memoryBounds, some 4096⟩ := by decide
theorem witness_CanonicalMemoriesAreEqual : Memory.wf (defaultConfig .base) [(0, 1#8), (4095, 2#8)] ∧
    ¬ Memory.wf (defaultConfig .base) [(0, 0xF0#8)] ∧ ∀ a, a < 4096 →
      Memory.read (defaultConfig .base) [(4095, 2#8)] a = Memory.read (defaultConfig .base) [(4095, 2#8)] a :=
  ⟨by decide, by decide, fun _ _ => rfl⟩
/-- The invariants hold of the machine that runs. -/
theorem witness_Inv : State.reset.Inv where
  memory := Memory.wf_nil _
  display := by show (List.replicate 2048 false).length = 64 * 32; rw [List.length_replicate]
  baseIsLow := fun _ => rfl
  record := by simp [State.reset]
  pcBound := by simp [State.reset]
  stackBound := by intro j; simp [State.reset]
theorem witness_StepKeepsInvariants : State.reset.Inv ∧ ∃ t, step State.reset = .next t := ⟨witness_Inv, _, rfl⟩
theorem witness_HostRunKeepsInvariants : State.reset.Inv ∧
    ∃ t, hostRun [.load [0x60, 7], .step, .tick, .setKey 15 true, .reset] State.reset = .next t := ⟨witness_Inv, _, rfl⟩
theorem witness_ResetRestores : State.reset.cfg.hifontInBase = false := rfl
theorem witness_SetKeyRule : State.reset.cfg.edgeHistory = .perKey ∧ (15 : Nat) < 16 ∧ 15 < 16 := by decide
theorem witness_LoadRule : (List.replicate 3584 0#8).length ≤ 3584 ∧ 3584 < (List.replicate 3585 0#8).length := by
  constructor <;> rw [List.length_replicate]
  decide
theorem witness_ReadDisplayRule : State.reset.mode = .low ∧ (startHigh [] []).mode = .high := ⟨rfl, rfl⟩
theorem witness_HaltLeftOnlyByReset : (sample.setStatus .faulted).Halted ∧ (sample.setStatus .terminated).Halted ∧
    HostOp.reset ∉ [HostOp.step, .tick, .load [1]] ∧
    ∃ t, hostRun [HostOp.step, .tick, .load [1]] (sample.setStatus .terminated) = .next t :=
  ⟨by unfold State.Halted; decide, by unfold State.Halted; decide, by decide, _, rfl⟩
theorem witness_JumpRule : sample.cfg.variant = .base ∧ State.reset.cfg.variant = .extended := ⟨rfl, rfl⟩
theorem witness_CallRule : ({ sample with sp := 15 } : State).sp.val < 16 ∧ ({ sample with sp := 16 } : State).sp.val = 16 := by
  decide
theorem witness_ReturnRule : 0 < ({ sample with sp := 1 } : State).sp.val ∧ sample.sp.val = 0 := by decide
theorem witness_SkipRegisterRule : (start .base [0x50, 0x1F] []).status = .running ∧
    (start .base [0x50, 0x1F] []).fetchInRange ∧ (start .base [0x50, 0x1F] []).wordAtPc.toNat / 4096 = 5 ∧
    (start .base [0x90, 0x11] []).wordAtPc.toNat / 4096 = 9 ∧ (start .base [0x50, 0x1F] []).wordAtPc.toNat % 16 ≠ 0 :=
  ⟨by decide, by unfold State.fetchInRange; decide, by decide, by decide, by decide⟩
theorem witness_LogicRule : sample.cfg.variant = .base ∧ State.reset.cfg.variant = .extended ∧ (0xE#4 ≠ 0xF#4) := by decide
theorem witness_AddRegisterRule : (0xE#4 ≠ 0xF#4) ∧ (0xF0#8).toNat + (0x0F#8).toNat = 255 := by decide
theorem witness_SubtractRule : (0xE#4 ≠ 0xF#4) ∧ (5#8).toNat ≥ (5#8).toNat := by decide
theorem witness_ShiftRule : ∃ src, src = if sample.cfg.variant = .base then sample.getV 1 else sample.getV 0 := ⟨_, rfl⟩
theorem witness_GlyphAddressRule : sample.cfg.variant = .base ∧ State.reset.cfg.variant = .extended ∧ State.reset.cfg.fontDigitMask = 0x0F#8 ∧
    State.reset.cfg.fontHiBase = 0x100 := by decide
theorem witness_BcdRule : (sample.setI 0xFFD).i.toNat + 2 < 4096 ∧ 4096 ≤ (sample.setI 0xFFE).i.toNat + 2 := by decide
theorem witness_BulkStoreRule : (sample.setI 0xFF0).i.toNat + (0xF#4).toNat < 4096 ∧
    4096 ≤ (sample.setI 0xFF1).i.toNat + (0xF#4).toNat ∧ sample.cfg.variant = .base ∧
    State.reset.cfg.variant = .extended := by decide
theorem witness_BulkLoadRule : (sample.setI 0xFFF).i.toNat + (0#4).toNat < 4096 ∧
    4096 ≤ (sample.setI 0x1000).i.toNat + (0#4).toNat ∧ sample.cfg.variant = .base ∧
    State.reset.cfg.variant = .extended := by decide
theorem witness_ClearRule : sample.mode = .low ∧ (startHigh [] []).mode = .high := ⟨rfl, rfl⟩
theorem witness_ResolutionRule : State.reset.cfg.variant = .extended ∧ State.reset.cfg.clearOnSameMode = true ∧
    sample.cfg.variant = .base := by decide
/-- In range: DS4 (a sprite whose clipped rows lie outside memory), DS15, DS8. Out of range: DS5, DS16. -/
theorem witness_DrawRule : sample.DisplayFits ∧ SpriteInRange ((start .base [] [(0, 60), (1, 30)]).setI 0xFFE) 1 5 ∧
    SpriteInRange ((startHigh [] []).setI 0xFE0) 1 0 ∧ SpriteInRange ((start .base [] []).setI 0xFFFF) 1 0 ∧
    ¬ SpriteInRange ((start .base [] [(0, 60)]).setI 0xFFE) 1 5 ∧ ¬ SpriteInRange ((startHigh [] []).setI 0xFE2) 1 0 :=
  ⟨by unfold State.DisplayFits; decide +kernel, by unfold SpriteInRange; decide, by unfold SpriteInRange; decide,
    by unfold SpriteInRange; decide, by unfold SpriteInRange; decide, by unfold SpriteInRange; decide⟩
theorem witness_DrawTwiceRestores : (0#4 ≠ 0xF#4) ∧ (1#4 ≠ 0xF#4) ∧ sample.DisplayFits ∧ SpriteInRange sample 1 5 :=
  ⟨by decide, by decide, by unfold State.DisplayFits; decide +kernel, by unfold SpriteInRange; decide⟩
theorem witness_KeySkipRule : ((start .base [] [(2, 15)]).getV 2).toNat < 16 ∧ 15 < ((start .base [] [(2, 16)]).getV 2).toNat := by
  decide
theorem witness_KeyWaitRule : (∃ k : Fin 16, ((sample.pressKey 15 true).pressKey 15 false).key[k] = false ∧
    ((sample.pressKey 15 true).pressKey 15 false).prevKey[k] = true) ∧ sample.cfg.keywaitPick = .lowest ∧
    sample.cfg.keywaitConsumes = false ∧
    ∀ k : Fin 16, ¬ (sample.key[k] = false ∧ sample.prevKey[k] = true) :=
  ⟨⟨15, by decide⟩, by decide, by decide, by decide⟩
theorem witness_KeyWaitNeverTimesOut : (∀ op ∈ [HostOp.step, .tick], op = .step ∨ op = .tick) ∧
    (start .base [0xF3, 0x0A] []).status = .running ∧ (start .base [0xF3, 0x0A] []).fetchInRange ∧
    (start .base [0xF3, 0x0A] []).wordAtPc = encode (.ldK 3) ∧
    ∀ k : Fin 16, ¬ ((start .base [0xF3, 0x0A] []).key[k] = false ∧ (start .base [0xF3, 0x0A] []).prevKey[k] = true) :=
  ⟨by decide, by decide, by unfold State.fetchInRange; decide, by decide, by decide⟩
theorem witness_ExitRule : State.reset.cfg.variant = .extended ∧ sample.cfg.variant = .base := ⟨rfl, rfl⟩
theorem witness_ReservedRule : State.reset.cfg.variant = .extended ∧ sample.cfg.variant = .base := ⟨rfl, rfl⟩
/-- M17. -/
theorem witness_StoreIsFetchedNext : let s := (start .base [0xF1, 0x55] [(0, 0x12), (1, 0x34)]).setI 0x202
    s.status = .running ∧ s.fetchInRange ∧ s.wordAtPc = encode (.ldStore 1) ∧ s.i = s.pc + 2 ∧ 1 ≤ (1#4).toNat ∧
      s.i.toNat + (1#4).toNat < 4096 :=
  ⟨by decide, by unfold State.fetchInRange; decide, by decide, by decide, by decide, by decide⟩
/-- A configuration with every parameter away from its default. -/
def otherConfig (v : Variant) : Config :=
  { defaultConfig v with
    fontHiBase := 0x110, hifontInBase := true, fontDigitMask := 0xFF, keywaitPick := .highest, keywaitConsumes := true,
    edgeHistory := .wholeArray, clearOnSameMode := false }

theorem witness_NonDefaultParameterRule : let s := State.construct (otherConfig .extended)
    s.cfg.edgeHistory = .wholeArray ∧ (15 : Nat) < 16 ∧ s.cfg.keywaitPick = .highest ∧ s.cfg.keywaitConsumes = true ∧
    s.cfg.variant = .extended ∧ s.cfg.clearOnSameMode = false ∧ s.mode = .low ∧
    (s.setDisplay .high (blankCells .high)).mode = .high ∧ s.cfg.hifontInBase = true ∧ s.cfg.fontHiBase ≤ 0x110 ∧
    0x173 < s.cfg.fontHiBase + 100 ∧ (let u := (s.pressKey 15 true).pressKey 15 false
      u.key[15] = false ∧ u.prevKey[15] = true) := by decide
theorem witness_StepKeepsTimersAndKeys : (run (start .base [0xF0, 0x15] [(0, 60)])).dt ≠ (start .base [0xF0, 0x15] [(0, 60)]).dt ∧
    (run (start .base [0xF0, 0x18] [(0, 60)])).st ≠ (start .base [0xF0, 0x18] [(0, 60)]).st := by decide
theorem witness_OnlyTheseWriteMemory : (run ((start .base [0xF0, 0x55] [(0, 9)]).setI 0xFFF)).byteAt 0xFFF ≠
    ((start .base [0xF0, 0x55] [(0, 9)]).setI 0xFFF).byteAt 0xFFF := by decide
theorem witness_OnlyTheseWriteTheDisplay : (run (start .base [0xD0, 0x11] [])).fb ≠ (start .base [0xD0, 0x11] []).fb ∧
    (run (start .extended [0x00, 0xFF] [])).mode ≠ (start .extended [0x00, 0xFF] []).mode := by decide
theorem witness_OnlyTheseMoveTheStack : (start .base [0x22, 0x10] []).sp < (run (start .base [0x22, 0x10] [])).sp ∧
    (run { start .base [0x00, 0xEE] [] with sp := 1 }).sp < (1 : Fin 17) := by decide
theorem witness_OnlyTheseWriteTheIndex : (run (start .base [0xF0, 0x65] [])).i ≠ (start .base [0xF0, 0x65] []).i ∧
    (run (start .base [0xA3, 0x00] [])).i ≠ (start .base [0xA3, 0x00] []).i := by decide
theorem witness_OnlyTheseWriteVF : ∃ t, exec (.addReg 0 1) sample = .next t ∧ t.getV 0xF ≠ sample.getV 0xF :=
  ⟨_, rfl, by decide⟩
theorem witness_ConfigurationIsFixed : ∃ t, hostRun [.tick, .step] sample = .next t := ⟨_, rfl⟩

end Sys2Proof.Tests
end

section
/-! PROOFS. The word of a decoded instruction, family by family of the decoder (spec/30_encoding.md R124, R125). -/

namespace Sys2Proof

theorem ifExtended_ok {ext : Bool} {i j : Instr} (h : ifExtended ext i = .ok j) : j = i := by
  unfold ifExtended at h
  split at h <;> cases h
  rfl

theorem packXYN_of_fields {w : Word} {f n : Nibble} (hf : opF w = f) (hn : opN w = n) :
    packXYN f (opX w) (opY w) n = w := by
  rw [← hf, ← hn, packXYN_fields]

theorem packXNN_of_fields {w : Word} {f : Nibble} {nn : Byte} (hf : opF w = f) (hn : opNN w = nn) :
    packXNN f (opX w) nn = w := by
  rw [← hf, ← hn, packXNN_fields]

theorem packNNN_of_family {w : Word} {f : Nibble} (hf : opF w = f) : packNNN f (opNNN w) = w := by
  rw [← hf, packNNN_fields]

theorem encode_of_decode0 {ext : Bool} {w : Word} {i : Instr} (h : decode0 ext w = .ok i) : encode i = w := by
  unfold decode0 at h
  split_ifs at h with h0 h1 h2 h3 h4 h5 h6 h7
  case pos => cases h; exact h0.symm
  case pos => cases h; exact h1.symm
  case pos =>
    cases ifExtended_ok h
    have hw := congrArg BitVec.toNat h2
    simp only [BitVec.extractLsb'_toNat, Nat.shiftRight_eq_div_pow] at hw
    apply BitVec.eq_of_toNat_eq
    rw [encode, packXYN_toNat, opN_toNat]
    have := w.isLt
    simp at hw ⊢
    omega
  all_goals cases ifExtended_ok h; symm; assumption

theorem encode_of_decode8 {w : Word} {i : Instr} (hf : opF w = 0x8#4)
    (h : decode8 (opX w) (opY w) (opN w) = .ok i) : encode i = w := by
  unfold decode8 at h
  split_ifs at h with hn hn hn hn hn hn hn hn hn <;> cases h <;> exact packXYN_of_fields hf hn

theorem encode_of_decodeE {w : Word} {i : Instr} (hf : opF w = 0xE#4)
    (h : decodeE (opX w) (opNN w) = .ok i) : encode i = w := by
  unfold decodeE at h
  split_ifs at h with hn hn <;> cases h <;> exact packXNN_of_fields hf hn

theorem encode_of_decodeF {ext : Bool} {w : Word} {i : Instr} (hf : opF w = 0xF#4)
    (h : decodeF ext (opX w) (opNN w) = .ok i) : encode i = w := by
  unfold decodeF ifExtended at h
  split_ifs at h with hn hn hn hn hn hn hn _ hn hn hn <;> cases h <;> exact packXNN_of_fields hf hn

/-- By the decoder's own tests of the family, in their order; the last branch is family F (R125). -/
theorem encode_of_decode {ext : Bool} {w : Word} {i : Instr} (h : decode ext w = .ok i) : encode i = w := by
  unfold decode at h
  obtain ⟨_, h⟩ | ⟨h0, h⟩ := ite_eq_iff.1 h
  · exact encode_of_decode0 h
  obtain ⟨hf, h⟩ | ⟨h1, h⟩ := ite_eq_iff.1 h
  · cases h; exact packNNN_of_family hf
  obtain ⟨hf, h⟩ | ⟨h2, h⟩ := ite_eq_iff.1 h
  · cases h; exact packNNN_of_family hf
  obtain ⟨hf, h⟩ | ⟨h3, h⟩ := ite_eq_iff.1 h
  · cases h; exact packXNN_of_fields hf rfl
  obtain ⟨hf, h⟩ | ⟨h4, h⟩ := ite_eq_iff.1 h
  · cases h; exact packXNN_of_fields hf rfl
  obtain ⟨hf, h⟩ | ⟨h5, h⟩ := ite_eq_iff.1 h
  · obtain ⟨hn, h⟩ | ⟨_, h⟩ := ite_eq_iff.1 h
    · cases h; exact packXYN_of_fields hf hn
    · cases h
  obtain ⟨hf, h⟩ | ⟨h6, h⟩ := ite_eq_iff.1 h
  · cases h; exact packXNN_of_fields hf rfl
  obtain ⟨hf, h⟩ | ⟨h7, h⟩ := ite_eq_iff.1 h
  · cases h; exact packXNN_of_fields hf rfl
  obtain ⟨hf, h⟩ | ⟨h8, h⟩ := ite_eq_iff.1 h
  · exact encode_of_decode8 hf h
  obtain ⟨hf, h⟩ | ⟨h9, h⟩ := ite_eq_iff.1 h
  · obtain ⟨hn, h⟩ | ⟨_, h⟩ := ite_eq_iff.1 h
    · cases h; exact packXYN_of_fields hf hn
    · cases h
  obtain ⟨hf, h⟩ | ⟨hA, h⟩ := ite_eq_iff.1 h
  · cases h; exact packNNN_of_family hf
  obtain ⟨hf, h⟩ | ⟨hB, h⟩ := ite_eq_iff.1 h
  · cases h; exact packNNN_of_family hf
  obtain ⟨hf, h⟩ | ⟨hC, h⟩ := ite_eq_iff.1 h
  · cases h; exact packXNN_of_fields hf rfl
  obtain ⟨hf, h⟩ | ⟨hD, h⟩ := ite_eq_iff.1 h
  · cases h; exact packXYN_of_fields hf rfl
  obtain ⟨hf, h⟩ | ⟨hE, h⟩ := ite_eq_iff.1 h
  · exact encode_of_decodeE hf h
  exact encode_of_decodeF (by bv_omega) h

end Sys2Proof
end

section
/-! PROOFS. Which instructions may write each part of the state, and what a step that changed a part has run
(spec/10_state.md R39, R42, R51, R53, R60 to R62, R65). -/

namespace Sys2Proof.Machine

variable {s t : State} {i : Instr} {p : StatePart}

/-! ### The quirk switches (R60, R62) -/

@[simp] theorem quirksOf_resetFlagOnLogicOps (v : Variant) : (quirksOf v).resetFlagOnLogicOps = (v == .base) := by
  cases v <;> rfl

@[simp] theorem quirksOf_memoryIncrementOnBulkTransfer (v : Variant) :
    (quirksOf v).memoryIncrementOnBulkTransfer = (v == .base) := by
  cases v <;> rfl

@[simp] theorem quirksOf_shiftUsesSecondOperand (v : Variant) :
    (quirksOf v).shiftUsesSecondOperand = (v == .base) := by
  cases v <;> rfl

@[simp] theorem quirksOf_jumpAddsRegisterIndexedByHighNibble (v : Variant) :
    (quirksOf v).jumpAddsRegisterIndexedByHighNibble = (v == .extended) := by
  cases v <;> rfl

@[simp] theorem quirksOf_extendedOpcodes (v : Variant) : (quirksOf v).extendedOpcodes = (v == .extended) := by
  cases v <;> rfl

/-- Settles O11, switch by switch. -/
theorem quirkTable : Obligations.QuirkTable := fun v =>
  ⟨quirksOf_resetFlagOnLogicOps v, quirksOf_memoryIncrementOnBulkTransfer v, quirksOf_shiftUsesSecondOperand v,
    quirksOf_jumpAddsRegisterIndexedByHighNibble v, quirksOf_extendedOpcodes v⟩

/-! ### The parts each instruction may write -/

@[simp] theorem mem_memSpan {a n : Nat} : p ∈ memSpan a n ↔ ∃ k < n, .memByte (a + k) = p := by
  simp [memSpan]

@[simp] theorem mem_regsUpTo {x : Nibble} : p ∈ regsUpTo x ↔ ∃ k ≤ x.toNat, .reg (BitVec.ofNat 4 k) = p := by
  simp [regsUpTo]

theorem vf_mem_regsUpTo {x : Nibble} (h : .reg vf ∈ regsUpTo x) : x = vf := by
  obtain ⟨k, hk, he⟩ := mem_regsUpTo.1 h
  have := x.isLt
  have he' := congrArg BitVec.toNat (StatePart.reg.inj he)
  rw [BitVec.toNat_ofNat] at he'
  bv_omega

theorem not_mem_mayWrite_config : .config ∉ mayWrite s i := by
  cases i <;> simp [mayWrite, apply_ite (StatePart.config ∈ ·)]

theorem not_mem_mayWrite_faultRecord : .faultRecord ∉ mayWrite s i := by
  cases i <;> simp [mayWrite, apply_ite (StatePart.faultRecord ∈ ·)]

theorem mem_mayWrite_status (h : .status ∈ mayWrite s i) : i = .exit := by
  cases i <;> simp [mayWrite, apply_ite (StatePart.status ∈ ·)] at h ⊢

theorem mem_mayWrite_framebuffer (h : .framebuffer ∈ mayWrite s i) :
    i ∈ [.cls, .low, .high] ∨ ∃ x y n, i = .drw x y n := by
  cases i <;> simp [mayWrite, apply_ite (StatePart.framebuffer ∈ ·)] at h ⊢

theorem mem_mayWrite_mode (h : .mode ∈ mayWrite s i) : i ∈ [.low, .high] := by
  cases i <;> simp [mayWrite, apply_ite (StatePart.mode ∈ ·)] at h ⊢

theorem mem_mayWrite_stackEntry {j : Fin 16} (h : .stackEntry j ∈ mayWrite s i) : ∃ nnn, i = .call nnn := by
  cases i <;> simp [mayWrite, apply_ite (StatePart.stackEntry j ∈ ·)] at h ⊢

theorem mem_mayWrite_sp (h : .sp ∈ mayWrite s i) : i = .ret ∨ ∃ nnn, i = .call nnn := by
  cases i <;> simp [mayWrite, apply_ite (StatePart.sp ∈ ·)] at h ⊢

theorem mem_mayWrite_index (h : .index ∈ mayWrite s i) :
    (∃ nnn, i = .ldI nnn) ∨ ∃ x, i ∈ [.addI x, .ldF x, .ldHf x] ∨
      (s.cfg.variant = .base ∧ i ∈ [.ldStore x, .ldLoad x]) := by
  cases i <;> simp [mayWrite, State.quirks, apply_ite (StatePart.index ∈ ·)] at h ⊢ <;> exact h

/-- 8XY1 writes VF in `Base`, or when VF is its destination (R225); 8XY2 and 8XY3 have the same frame. -/
theorem mem_mayWrite_vf_logic {x y : Nibble} (h : .reg vf ∈ mayWrite s (.or x y)) :
    s.cfg.variant = .base ∨ x = vf := by
  simp only [mayWrite] at h
  split at h
  next hq => exact .inl (by simpa [State.quirks] using hq)
  next => exact .inr (by simpa [eq_comm] using h)

theorem mem_mayWrite_vf (h : .reg vf ∈ mayWrite s i) :
    (∃ x y, i ∈ [.or x y, .and x y, .xor x y] ∧ (s.cfg.variant = .base ∨ x = vf)) ∨
    (∃ x y, i ∈ [.addReg x y, .sub x y, .subn x y, .shr x y, .shl x y]) ∨
    (∃ x y n, i = .drw x y n) ∨
    (∃ nn y, i ∈ [.ldImm vf nn, .addImm vf nn, .ldReg vf y, .rnd vf nn]) ∨
    i ∈ [.ldLoad vf, .ldK vf, .ldFromDt vf] := by
  cases i with
  | or x y | and x y | xor x y => exact .inl ⟨x, y, by simp, mem_mayWrite_vf_logic (y := y) h⟩
  | ldLoad x =>
    have : x = vf := vf_mem_regsUpTo (by simp only [mayWrite] at h; split at h <;> simpa using h)
    simp [this]
  | _ => simp [mayWrite, eq_comm (a := vf), apply_ite (StatePart.reg vf ∈ ·)] at h ⊢ <;> exact h

/-! ### What a step that changed a part has run -/

/-- An instruction takes a fault, from the state it began in, or it has its outcome within its frame. -/
theorem exec_ends (h : exec i s = .next t) :
    (∃ e, t = s.takeFault e (some (encode i))) ∨ (outcome s i t ∧ OnlyChanges s t (mayWrite s i)) := by
  rcases exec_outcome i s t h with hf | ho
  · exact .inl hf
  · exact (exec_frame i s t h).imp id (⟨ho, ·⟩)

/-- A step changes nothing, takes a fault, or runs the instruction whose word is at `pc` to its outcome. -/
theorem step_ends (h : step s = .next t) :
    t = s ∨ (∃ e op, t = s.takeFault e op) ∨
      ∃ i, s.wordAtPc = encode i ∧ s.status = .running ∧ s.fetchInRange ∧
        outcome s i t ∧ OnlyChanges s t (mayWrite s i) := by
  obtain ⟨_, rfl⟩ | ⟨_, _, rfl⟩ | ⟨_, _, _, _, rfl⟩ | ⟨hs, hf, i, hd, he⟩ := step_cases h
  · exact .inl rfl
  · exact .inr (.inl ⟨_, _, rfl⟩)
  · exact .inr (.inl ⟨_, _, rfl⟩)
  · obtain ⟨e, rfl⟩ | ⟨ho, hc⟩ := exec_ends he
    · exact .inr (.inl ⟨_, _, rfl⟩)
    · exact .inr (.inr ⟨i, (encode_of_decode hd).symm, hs, hf, ho, hc⟩)

theorem same_takeFault (hp : p ∉ [.status, .faultRecord]) (e : Trap) (op : Option Word) :
    p.same s (s.takeFault e op) :=
  onlyChanges_takeFault s e op p hp

/-- The frame of exec_frame, read backwards; the two parts of fault entry (R372) are left out. -/
theorem exec_writes (h : exec i s = .next t) (hp : p ∉ [.status, .faultRecord]) (hc : ¬ p.same s t) :
    p ∈ mayWrite s i := by
  obtain ⟨e, rfl⟩ | ⟨_, ho⟩ := exec_ends h
  · exact absurd (same_takeFault hp e _) hc
  · exact by_contra fun hn => hc (ho p hn)

/-- What the statements about a changed part turn on: it is in the frame of the instruction at `pc`, which ran to its
outcome. -/
theorem step_writes (h : step s = .next t) (hp : p ∉ [.status, .faultRecord]) (hc : ¬ p.same s t) :
    ∃ i, s.wordAtPc = encode i ∧ p ∈ mayWrite s i ∧ outcome s i t := by
  obtain rfl | ⟨e, op, rfl⟩ | ⟨i, hw, _, _, ho, hf⟩ := step_ends h
  · exact absurd (StatePart.same_rfl _ p) hc
  · exact absurd (same_takeFault hp e op) hc
  · exact ⟨i, hw, by_contra fun hn => hc (hf p hn), ho⟩

/-! ### Who writes the display, the stack, I and VF -/

/-- Settles O55: the framebuffer and the mode are in the frames of these instructions alone. -/
theorem onlyTheseWriteTheDisplay : Obligations.OnlyTheseWriteTheDisplay := by
  intro s t h
  constructor
  · intro hne
    obtain ⟨i, hw, hm, _⟩ := step_writes (p := .framebuffer) h (by decide) hne
    rw [hw]
    obtain hi | ⟨x, y, n, rfl⟩ := mem_mayWrite_framebuffer hm
    · exact .inl (List.mem_map_of_mem (f := encode) hi)
    · exact .inr ⟨x, y, n, rfl⟩
  · intro hne
    obtain ⟨i, hw, hm, _⟩ := step_writes (p := .mode) h (by decide) hne
    exact hw ▸ List.mem_map_of_mem (f := encode) (mem_mayWrite_mode hm)

theorem outcome_call_sp {nnn : Addr} (h : outcome s (.call nnn) t) : s.sp < t.sp := by
  obtain ⟨_, rfl⟩ := h
  exact Nat.lt_succ_self _

theorem outcome_ret_sp (h : outcome s .ret t) : t.sp < s.sp := by
  obtain ⟨hs, rfl⟩ := h
  exact Nat.sub_lt hs Nat.one_pos

/-- A step that moves `sp` ran a 2NNN, which raises it, or a 00EE, which lowers it (R42). -/
theorem step_moves_sp (h : step s = .next t) (hne : t.sp ≠ s.sp) :
    (s.sp < t.sp ∧ ∃ nnn, s.wordAtPc = encode (.call nnn)) ∨ (t.sp < s.sp ∧ s.wordAtPc = encode .ret) := by
  obtain ⟨i, hw, hm, ho⟩ := step_writes (p := .sp) h (by decide) hne
  obtain rfl | ⟨nnn, rfl⟩ := mem_mayWrite_sp hm
  · exact .inr ⟨outcome_ret_sp ho, hw⟩
  · exact .inl ⟨outcome_call_sp ho, nnn, hw⟩

theorem step_writes_stack (h : step s = .next t) (hne : t.stack ≠ s.stack) :
    ∃ nnn, s.wordAtPc = encode (.call nnn) := by
  obtain ⟨j, hj⟩ : ∃ j : Fin 16, t.stack[j] ≠ s.stack[j] := by
    by_contra! hall
    exact hne (Vector.ext fun k hk => hall ⟨k, hk⟩)
  obtain ⟨i, hw, hm, _⟩ := step_writes (p := .stackEntry j) h (by simp) hj
  obtain ⟨nnn, rfl⟩ := mem_mayWrite_stackEntry hm
  exact ⟨nnn, hw⟩

/-- Settles O56: a stack entry is in the frame of 2NNN only, `sp` in those of 2NNN and 00EE, and each of the two moves
`sp` its own way. -/
theorem onlyTheseMoveTheStack : Obligations.OnlyTheseMoveTheStack := by
  intro s t h
  constructor
  · rintro (hne | hlt)
    · exact step_writes_stack h hne
    · obtain ⟨_, hw⟩ | ⟨hgt, _⟩ := step_moves_sp h hlt.ne'
      · exact hw
      · exact absurd hgt hlt.asymm
  · intro hlt
    obtain ⟨hgt, _⟩ | ⟨_, hw⟩ := step_moves_sp h hlt.ne
    · exact absurd hgt hlt.asymm
    · exact hw

/-- Settles O57: I is in the frames of these instructions alone. -/
theorem onlyTheseWriteTheIndex : Obligations.OnlyTheseWriteTheIndex := by
  intro s t h hne
  obtain ⟨i, hw, hm, _⟩ := step_writes (p := .index) h (by decide) hne
  rw [hw]
  obtain ⟨nnn, rfl⟩ | ⟨x, hi | ⟨hv, hi⟩⟩ := mem_mayWrite_index hm
  · exact .inl ⟨nnn, rfl⟩
  · exact .inr ⟨x, .inl (List.mem_map_of_mem (f := encode) hi)⟩
  · exact .inr ⟨x, .inr ⟨hv, List.mem_map_of_mem (f := encode) hi⟩⟩

/-- Settles O58: VF is in the frames of these instructions alone. -/
theorem onlyTheseWriteVF : Obligations.OnlyTheseWriteVF := fun _ _ _ h hne =>
  mem_mayWrite_vf (exec_writes (p := .reg vf) h (by decide) hne)

/-! ### The configuration (R10, R61) -/

theorem step_cfg (h : step s = .next t) : t.cfg = s.cfg := by
  by_contra hne
  obtain ⟨i, _, hm, _⟩ := step_writes (p := .config) h (by decide) hne
  exact not_mem_mayWrite_config hm

@[simp] theorem State.storeBytes_cfg (s : State) (a : Nat) (bs : List Byte) : (s.storeBytes a bs).cfg = s.cfg := by
  rw [State.storeBytes_eq]

theorem hostLoad_next {bytes : List Byte} (h : hostLoad bytes s = .next t) :
    bytes.length ≤ maxProgram ∧ t = s.storeBytes loadAddr bytes := by
  unfold hostLoad at h
  split at h
  · cases h; exact ⟨‹_›, rfl⟩
  · cases h

theorem hostSetKey_next {k : Nat} {pressed : Bool} (h : hostSetKey k pressed s = .next t) :
    ∃ hk : k < 16, t = s.pressKey ⟨k, hk⟩ pressed := by
  unfold hostSetKey at h
  split at h
  · cases h; exact ⟨‹_›, rfl⟩
  · cases h

theorem tick_cfg : s.tickDelay.tickSound.tickStop.cfg = s.cfg := by
  unfold State.tickStop State.tickSound State.tickDelay
  split_ifs <;> rfl

theorem hostStep_cfg {op : HostOp} (h : hostStep op s = .next t) : t.cfg = s.cfg := by
  cases op with
  | load bytes => rw [(hostLoad_next h).2, State.storeBytes_cfg]
  | step => exact step_cfg h
  | tick => cases h; exact tick_cfg
  | setKey k pressed => obtain ⟨_, rfl⟩ := hostSetKey_next h; rfl
  | readDisplay => cases h; rfl
  | reset => cases h; rfl

/-- A run that has a transition throughout: its first operation's, then the rest of the run's. -/
theorem hostRun_cons {op : HostOp} {ops : List HostOp} (h : hostRun (op :: ops) s = .next t) :
    ∃ u, hostStep op s = .next u ∧ hostRun ops u = .next t := by
  unfold hostRun at h
  split at h
  · exact ⟨_, ‹_›, h⟩
  · cases h
  · cases h

theorem hostRun_cfg (ops : List HostOp) : ∀ s : State, hostRun ops s = .next t → t.cfg = s.cfg := by
  induction ops with
  | nil => intro s h; cases h; rfl
  | cons op ops ih =>
    intro s h
    obtain ⟨u, hu, h⟩ := hostRun_cons h
    exact (ih u h).trans (hostStep_cfg hu)

/-- Settles O59, by induction on the operations; the quirk switches follow the configuration. -/
theorem configurationIsFixed : Obligations.ConfigurationIsFixed := fun ops s _ h =>
  ⟨hostRun_cfg ops s h, State.quirks_congr (hostRun_cfg ops s h)⟩

end Sys2Proof.Machine
end

section
/-! PROOFS. The invariants hold of every constructed machine and every step keeps them: each of the six parts is a
lemma about one instruction's outcome (spec/10_state.md R37, R50, R51, R71; spec/20_memory.md R80). -/

namespace Sys2Proof.Machine

variable {s t : State} {i : Instr}

/-! ### The updates that leave memory and `pc` alone -/

section
variable (s : State)

@[simp] theorem State.setFlag_mem (b : Bool) : (s.setFlag b).mem = s.mem := rfl
@[simp] theorem State.setFlag_pc (b : Bool) : (s.setFlag b).pc = s.pc := rfl
@[simp] theorem State.setResultFlag_mem (x : Nibble) (r : Byte) (b : Bool) : (s.setResultFlag x r b).mem = s.mem := rfl
@[simp] theorem State.setResultFlag_pc (x : Nibble) (r : Byte) (b : Bool) : (s.setResultFlag x r b).pc = s.pc := rfl

@[simp] theorem State.setLogic_mem (x : Nibble) (r : Byte) : (s.setLogic x r).mem = s.mem := by
  unfold State.setLogic; split <;> rfl
@[simp] theorem State.setLogic_pc (x : Nibble) (r : Byte) : (s.setLogic x r).pc = s.pc := by
  unfold State.setLogic; split <;> rfl

@[simp] theorem State.skipIf_mem (b : Bool) : (s.skipIf b).mem = s.mem := by rw [State.skipIf_eq]; rfl

@[simp] theorem State.bulkIndex_mem (x : Nibble) : (s.bulkIndex x).mem = s.mem := by rw [State.bulkIndex_eq]; rfl
@[simp] theorem State.bulkIndex_pc (x : Nibble) : (s.bulkIndex x).pc = s.pc := by rw [State.bulkIndex_eq]; rfl

@[simp] theorem State.selectMode_mem (m : Mode) : (s.selectMode m).mem = s.mem := by
  unfold State.selectMode; split <;> rfl
@[simp] theorem State.selectMode_pc (m : Mode) : (s.selectMode m).pc = s.pc := by
  unfold State.selectMode; split <;> rfl

@[simp] theorem State.consumeEdge_mem (k : Nibble) : (s.consumeEdge k).mem = s.mem := by
  unfold State.consumeEdge; split <;> rfl
@[simp] theorem State.consumeEdge_pc (k : Nibble) : (s.consumeEdge k).pc = s.pc := by
  unfold State.consumeEdge; split <;> rfl

@[simp] theorem State.loadRegs_mem (k : Nat) (bs : List Byte) : (s.loadRegs k bs).mem = s.mem := by
  rw [State.loadRegs_eq]
@[simp] theorem State.loadRegs_pc (k : Nat) (bs : List Byte) : (s.loadRegs k bs).pc = s.pc := by
  rw [State.loadRegs_eq]

@[simp] theorem State.storeBytes_pc (a : Nat) (bs : List Byte) : (s.storeBytes a bs).pc = s.pc := by
  rw [State.storeBytes_eq]

end

/-! ### Memory (R80) -/

/-- FX33 and FX55 store bytes inside the address space; every other instruction leaves memory as it is. -/
theorem outcome_mem (h : outcome s i t) :
    t.mem = s.mem ∨ ∃ a bs, a + bs.length ≤ memSize ∧ t.mem = (s.advance.storeBytes a bs).mem := by
  cases i with
  | ldB x =>
    obtain ⟨hi, rfl⟩ := h
    exact .inr ⟨s.i.toNat, bcdDigits (s.getV x), hi, rfl⟩
  | ldStore x =>
    obtain ⟨hi, rfl⟩ := h
    have hl : (s.vUpTo x).length = x.toNat + 1 := by simp [State.vUpTo]
    exact .inr ⟨s.i.toNat, s.vUpTo x, hl ▸ hi, State.bulkIndex_mem _ _⟩
  | ldK x => obtain ⟨_, rfl⟩ | ⟨_, _, rfl⟩ := h <;> simp
  | drw x y n => obtain ⟨_, _, rfl⟩ := h; simp
  | ret | call | skp | sknp | scd | scr | scl | exit | low | high | ldHf | ldLoad => obtain ⟨_, rfl⟩ := h; simp
  | _ => obtain rfl := h; simp

theorem outcome_memory_wf (h : outcome s i t) (hc : t.cfg = s.cfg) (hs : Memory.wf s.cfg s.mem) :
    Memory.wf t.cfg t.mem := by
  rw [hc]
  obtain hm | ⟨a, bs, hl, hm⟩ := outcome_mem h <;> rw [hm]
  · exact hs
  · exact State.storeBytes_cfg s.advance a bs ▸ State.wf_storeBytes bs s.advance a hs hl

/-! ### The display (R50, R51) -/

theorem displayFits_blank (s : State) (m : Mode) : (s.setDisplay m (blankCells m)).DisplayFits :=
  List.length_replicate

theorem displayFits_selectMode (m : Mode) (h : s.DisplayFits) : (s.selectMode m).DisplayFits := by
  unfold State.selectMode
  split
  · exact h
  · exact displayFits_blank s m

theorem outcome_displayFits (h : outcome s i t) (hf : OnlyChanges s t (mayWrite s i)) (hs : s.DisplayFits) :
    t.DisplayFits := by
  cases i with
  | cls => obtain rfl := h; exact displayFits_blank s.advance s.mode
  | low | high => obtain ⟨_, rfl⟩ := h; exact displayFits_selectMode (s := s.advance) _ hs
  | drw x y n => obtain ⟨_, _, rfl⟩ := h; exact (toggleCells_length _ _).trans hs
  | _ =>
    have hfb : t.fb = s.fb := hf .framebuffer fun hm => by simpa using mem_mayWrite_framebuffer hm
    have hmode : t.mode = s.mode := hf .mode fun hm => by simpa using mem_mayWrite_mode hm
    rw [State.DisplayFits, hfb, hmode]
    exact hs

/-- Only the `Extended` instructions 00FE and 00FF change the mode (R51). -/
theorem outcome_baseIsLow (h : outcome s i t) (hf : OnlyChanges s t (mayWrite s i))
    (hs : s.cfg.variant = .base → s.mode = .low) (hv : s.cfg.variant = .base) : t.mode = .low := by
  by_cases hm : .mode ∈ mayWrite s i
  · have hext : s.quirks.extendedOpcodes = true := by
      obtain rfl | rfl : i = .low ∨ i = .high := by simpa using mem_mayWrite_mode hm
      all_goals exact h.1
    simp [State.quirks, hv] at hext
  · exact (hf .mode hm).trans (hs hv)

/-! ### The status and the fault record (R71) -/

/-- Without a fault the status changes only through 00FD (R350). -/
theorem outcome_status (h : outcome s i t) (hf : OnlyChanges s t (mayWrite s i)) :
    t.status = s.status ∨ t.status = .terminated := by
  by_cases hm : .status ∈ mayWrite s i
  · obtain rfl := mem_mayWrite_status hm
    obtain ⟨_, rfl⟩ := h
    exact .inr rfl
  · exact .inl (hf .status hm)

theorem outcome_record (h : outcome s i t) (hf : OnlyChanges s t (mayWrite s i)) (hr : s.status = .running)
    (hs : s.fault.isSome = true ↔ s.status = .faulted) : t.fault.isSome = true ↔ t.status = .faulted := by
  have hfault : t.fault = s.fault := hf .faultRecord not_mem_mayWrite_faultRecord
  have hstatus : t.status ≠ .faulted := by
    obtain e | e := outcome_status h hf <;> simp [e, hr]
  rw [hfault, hs, hr]
  simp [hstatus]

/-! ### The program counter and the return addresses (R37) -/

section
variable (hpc : s.fetchInRange)
include hpc

/-- The instruction after one that was fetched. -/
theorem advance_pc_le : (s.pc + 2).toNat ≤ 0x1000 := by
  have : s.pc.toNat + 1 < 4096 := hpc
  bv_omega

theorem skipIf_pc_le (b : Bool) : (s.advance.skipIf b).pc.toNat ≤ 0x1002 := by
  have := advance_pc_le hpc
  rw [State.skipIf_eq]
  cases b <;> simp <;> bv_omega

theorem outcome_pc_le (h : outcome s i t) (hs : ∀ j : Fin 16, s.stack[j].toNat ≤ 0x1000) :
    t.pc.toNat ≤ 0x10FE := by
  have hnext : (s.pc + 2).toNat ≤ 0x10FE := (advance_pc_le hpc).trans (by decide)
  have hskip (b : Bool) : (s.advance.skipIf b).pc.toNat ≤ 0x10FE := (skipIf_pc_le hpc b).trans (by decide)
  cases i with
  | ret => obtain ⟨_, rfl⟩ := h; exact (hs ⟨s.sp.val - 1, by omega⟩).trans (by decide)
  | jp nnn => obtain rfl := h; simp; omega
  | call nnn => obtain ⟨_, rfl⟩ := h; simp; omega
  | jpOff nnn => obtain rfl := h; simp [State.jumpOffTarget]; omega
  | seImm | sneImm | seReg | sneReg => obtain rfl := h; exact hskip _
  | skp | sknp => obtain ⟨_, rfl⟩ := h; exact hskip _
  | ldK x =>
    obtain ⟨_, rfl⟩ | ⟨_, _, rfl⟩ := h
    · have : t.pc.toNat + 1 < 4096 := hpc
      omega
    · simpa using hnext
  | drw x y n => obtain ⟨_, _, rfl⟩ := h; simpa using hnext
  | scd | scr | scl | exit | low | high | ldHf | ldB | ldStore | ldLoad => obtain ⟨_, rfl⟩ := h; simpa using hnext
  | _ => obtain rfl := h; simpa using hnext

/-- The entry that 2NNN pushes is the address after it; no other instruction writes one (R42). -/
theorem outcome_stack_le (h : outcome s i t) (hf : OnlyChanges s t (mayWrite s i))
    (hs : ∀ j : Fin 16, s.stack[j].toNat ≤ 0x1000) (j : Fin 16) : t.stack[j].toNat ≤ 0x1000 := by
  by_cases hm : .stackEntry j ∈ mayWrite s i
  · obtain ⟨nnn, rfl⟩ := mem_mayWrite_stackEntry hm
    obtain ⟨_, rfl⟩ := h
    simp only [Fin.getElem_fin, Vector.getElem_set]
    split
    · exact advance_pc_le hpc
    · exact hs j
  · have hj : t.stack[j] = s.stack[j] := hf _ hm
    exact hj ▸ hs j

end

/-! ### The statements -/

/-- Settles O16, part by part. -/
theorem resetMeetsInvariants : Obligations.ResetMeetsInvariants := fun c =>
  { memory := Memory.wf_nil c
    display := displayFits_blank (State.construct c) .low
    baseIsLow := fun _ => rfl
    record := by simp
    pcBound := by simp
    stackBound := by simp }

/-- Fault entry writes the record and the status together (R372) and nothing else. -/
theorem inv_takeFault (h : s.Inv) (e : Trap) (op : Option Word) : (s.takeFault e op).Inv :=
  { h with record := by simp }

theorem inv_outcome (h : s.Inv) (hr : s.status = .running) (hpc : s.fetchInRange) (ho : outcome s i t)
    (hf : OnlyChanges s t (mayWrite s i)) : t.Inv := by
  have hcfg : t.cfg = s.cfg := hf .config not_mem_mayWrite_config
  exact
    { memory := outcome_memory_wf ho hcfg h.memory
      display := outcome_displayFits ho hf h.display
      baseIsLow := fun hv => outcome_baseIsLow ho hf h.baseIsLow (hcfg ▸ hv)
      record := outcome_record ho hf hr h.record
      pcBound := outcome_pc_le hpc ho h.stackBound
      stackBound := outcome_stack_le hpc ho hf h.stackBound }

/-- Settles O17, by the ways a step ends. -/
theorem stepKeepsInvariants : Obligations.StepKeepsInvariants := by
  intro s t h hstep
  obtain rfl | ⟨e, op, rfl⟩ | ⟨i, _, hr, hpc, ho, hf⟩ := step_ends hstep
  · exact h
  · exact inv_takeFault h e op
  · exact inv_outcome h hr hpc ho hf

end Sys2Proof.Machine
end

section
/-! PROOFS. Memory and the host operations on it: single bytes and Load, the canonical form, which instructions write
memory, what a store leaves to fetch, and the invariants along a run of host operations (spec/20_memory.md R80 to R102). -/

namespace Sys2Proof.Machine

variable {s t : State} {i : Instr}

/-! ### Every run of host operations keeps the invariants (R100, R441) -/

theorem inv_storeBytes {a : Nat} {bs : List Byte} (h : s.Inv) (hl : a + bs.length ≤ memSize) :
    (s.storeBytes a bs).Inv := by
  have hm := State.wf_storeBytes bs s a h.memory hl
  rw [State.storeBytes_eq] at hm ⊢
  exact { h with memory := hm }

/-- A tick writes the timers and the events, of which no invariant speaks (R390). -/
theorem inv_tick (h : s.Inv) : s.tickDelay.tickSound.tickStop.Inv := by
  have hd : s.tickDelay.Inv := by unfold State.tickDelay; split <;> exact { h with }
  have hst : s.tickDelay.tickSound.Inv := by unfold State.tickSound; split <;> exact { hd with }
  unfold State.tickStop
  split <;> exact { hst with }

/-- SetKey writes the two key arrays, of which no invariant speaks (R400). -/
theorem inv_pressKey (h : s.Inv) (k : Fin 16) (pressed : Bool) : (s.pressKey k pressed).Inv := { h with }

/-- Reset leaves the constructed state of the same configuration but for the draws and the events (R421). -/
theorem inv_hostReset (s : State) : s.hostReset.Inv := { resetMeetsInvariants s.cfg with }

theorem hostStep_inv {op : HostOp} (h : s.Inv) (hop : hostStep op s = .next t) : t.Inv := by
  cases op with
  | load bytes =>
    obtain ⟨hl, rfl⟩ := hostLoad_next hop
    exact inv_storeBytes h (Nat.add_le_add_left hl loadAddr)
  | step => exact stepKeepsInvariants s t h hop
  | tick => cases hop; exact inv_tick h
  | setKey k pressed => obtain ⟨_, rfl⟩ := hostSetKey_next hop; exact inv_pressKey h _ pressed
  | readDisplay => cases hop; exact h
  | reset => cases hop; exact inv_hostReset s

/-- Settles O18, by induction on the operations. -/
theorem hostRunKeepsInvariants : Obligations.HostRunKeepsInvariants := by
  intro ops
  induction ops with
  | nil => intro s t h hrun; cases hrun; exact h
  | cons op ops ih =>
    intro s t h hrun
    obtain ⟨u, hop, hrun⟩ := hostRun_cons hrun
    exact ih u t (hostStep_inv h hop) hrun

/-! ### The canonical form (R80, R95) -/

/-- In a memory whose addresses rise, the entries are what lookup finds. -/
theorem Memory.mem_iff_lookup {m : Memory} (h : m.Pairwise fun p q => p.1 < q.1) (a : Nat) (v : Byte) :
    (a, v) ∈ m ↔ Memory.lookup a m = some v := by
  induction m with
  | nil => simp [Memory.lookup]
  | cons p m ih =>
    obtain ⟨b, w⟩ := p
    obtain ⟨hb, hm⟩ := List.pairwise_cons.1 h
    rw [List.mem_cons, Memory.lookup, ih hm]
    by_cases hab : a = b
    · subst hab
      have hnot : Memory.lookup a m ≠ some v := fun hl => lt_irrefl a (hb _ ((ih hm).2 hl))
      simp [hnot, eq_comm]
    · simp [hab]

/-- In canonical memory the entries are the bytes that differ from what reset leaves. -/
theorem Memory.mem_iff_read {c : Config} {m : Memory} (h : Memory.wf c m) (a : Nat) (v : Byte) :
    (a, v) ∈ m ↔ a < memSize ∧ v ≠ resetByte c a ∧ Memory.read c m a = v := by
  obtain ⟨hrise, hlisted⟩ := h
  rw [Memory.read]
  constructor
  · intro hv
    obtain ⟨ha, hne⟩ := hlisted _ hv
    exact ⟨ha, hne, by rw [(Memory.mem_iff_lookup hrise a v).1 hv]; rfl⟩
  · rintro ⟨_, hne, hr⟩
    rw [Memory.mem_iff_lookup hrise]
    cases hl : Memory.lookup a m with
    | none => rw [hl] at hr; exact absurd hr.symm hne
    | some w => rw [hl] at hr; exact congrArg some hr

/-- Settles O13: both lists rise strictly, and reading decides the entries of each. -/
theorem canonicalMemoriesAreEqual : Obligations.CanonicalMemoriesAreEqual := by
  intro c m m' h h' hread
  have : Std.Irrefl fun p q : Host.Cell => p.1 < q.1 := ⟨fun p => Nat.lt_irrefl p.1⟩
  have : Std.Antisymm fun p q : Host.Cell => p.1 < q.1 := ⟨fun _ _ hpq hqp => absurd hqp hpq.asymm⟩
  refine h.1.eq_of_mem_iff h'.1 fun ⟨a, v⟩ => ?_
  rw [Memory.mem_iff_read h, Memory.mem_iff_read h']
  exact and_congr_right fun ha => by rw [hread a ha]

/-! ### Load and single bytes (R81 to R83, R101, R102) -/

theorem State.byteAt_storeBytes_add (s : State) (a : Nat) {bs : List Byte} {j : Nat} (h : j < bs.length) :
    (s.storeBytes a bs).byteAt (a + j) = bs[j] := by
  rw [State.byteAt_storeBytes, if_pos (by omega), Nat.add_sub_cancel_left, List.getD_eq_getElem _ _ h]

/-- Settles O21: the two branches of Load, the first with the frame and the bytes of storing a list. -/
theorem loadRule : Obligations.LoadRule := fun s bytes =>
  ⟨fun hl => ⟨s.storeBytes loadAddr bytes, if_pos hl, onlyChanges_storeBytes s loadAddr bytes,
    fun _ h => State.byteAt_storeBytes_add s loadAddr h⟩, fun hl => if_neg (Nat.not_le.2 hl)⟩

/-- Settles O12: the two branches of each access, the first write's with the frame and the byte of one store. -/
theorem byteAccessRule : Obligations.ByteAccessRule := fun s a b =>
  ⟨fun ha => ⟨if_pos ha, s.storeByte a b, if_pos ha, onlyChanges_storeByte s a b,
    (State.byteAt_storeByte s a a b).trans (if_pos rfl)⟩,
    fun ha => ⟨if_neg (Nat.not_lt.2 ha), if_neg (Nat.not_lt.2 ha)⟩⟩

/-! ### Who writes memory (R92) -/

theorem mem_mayWrite_memByte {a : Nat} (h : .memByte a ∈ mayWrite s i) :
    ∃ x, (i = .ldB x ∧ ∃ k < 3, s.i.toNat + k = a) ∨ (i = .ldStore x ∧ ∃ k < x.toNat + 1, s.i.toNat + k = a) := by
  cases i <;> simp [mayWrite, apply_ite (StatePart.memByte a ∈ ·)] at h ⊢ <;> exact h

/-- Settles O54: a byte is in the frames of FX33 and FX55 alone, and these end with their outcome inside memory. -/
theorem onlyTheseWriteMemory : Obligations.OnlyTheseWriteMemory := by
  intro s t a h hne
  obtain ⟨i, hw, hm, ho⟩ := step_writes (p := .memByte a) h (by simp) hne
  obtain ⟨x, ⟨rfl, k, hk, rfl⟩ | ⟨rfl, k, hk, rfl⟩⟩ := mem_mayWrite_memByte hm
  · have hi : s.i.toNat + 2 < 4096 := ho.1
    exact ⟨by omega, by omega, x, .inl ⟨hw, by omega⟩⟩
  · have hi : s.i.toNat + x.toNat < 4096 := ho.1
    exact ⟨by omega, by omega, x, .inr ⟨hw, by omega⟩⟩

/-! ### What a store leaves to fetch (R97) -/

theorem decode_encode_ldStore (ext : Bool) (x : Nibble) : decode ext (encode (.ldStore x)) = .ok (.ldStore x) := by
  simp [decode, decodeF, encode]

@[simp] theorem State.length_vUpTo (s : State) (x : Nibble) : (s.vUpTo x).length = x.toNat + 1 := by
  simp [State.vUpTo]

/-- FX55 whose bytes are all inside memory takes no fault (R265). -/
theorem exec_ldStore_next {x : Nibble} (h : s.i.toNat + x.toNat < memSize) :
    exec (.ldStore x) s = .next ((s.advance.storeBytes s.i.toNat (s.vUpTo x)).bulkIndex x) := by
  have hl : s.i.toNat + (s.vUpTo x).length ≤ memSize := by rw [State.length_vUpTo]; exact h
  rw [exec, execLdStore]
  apply runInstr_ok
  rw [State.memWrites_eq, if_pos (.inr hl)]
  rfl

@[simp] theorem State.byteAt_bulkIndex (s : State) (x : Nibble) (a : Nat) : (s.bulkIndex x).byteAt a = s.byteAt a := by
  rw [State.bulkIndex_eq]; rfl

/-- The byte that FX55 stores for V[k]. -/
theorem State.byteAt_storeBytes_vUpTo (s t : State) (a : Nat) {x k : Nibble} (h : k.toNat ≤ x.toNat) :
    (t.storeBytes a (s.vUpTo x)).byteAt (a + k.toNat) = s.getV k := by
  rw [State.byteAt_storeBytes_add t a (by rw [State.length_vUpTo]; omega)]
  simp [State.vUpTo]

theorem State.wordAtPc_toNat (s : State) :
    s.wordAtPc.toNat = (s.byteAt s.pc.toNat).toNat * 256 + (s.byteAt (s.pc.toNat + 1)).toNat := by
  rw [State.wordAtPc, BitVec.toNat_ofNat]
  omega

/-- Settles O52: V[0] and V[1] are stored at the two addresses of the next fetch. -/
theorem storeIsFetchedNext : Obligations.StoreIsFetchedNext := by
  intro x s hs hf hw hi hx hin
  have hstep := (step_of_decode hs hf (hw ▸ decode_encode_ldStore _ x)).trans (exec_ldStore_next hin)
  refine ⟨_, hstep, State.fetch_wordAtPc ?_, ?_⟩
  · have hpc : (s.pc + 2).toNat + 1 < 4096 := by rw [← hi]; omega
    simpa [State.fetchInRange] using hpc
  · have hbyte {k : Nibble} (hk : k.toNat ≤ x.toNat) := s.byteAt_storeBytes_vUpTo s.advance s.i.toNat hk
    rw [State.wordAtPc_toNat, State.bulkIndex_pc, State.storeBytes_pc, State.advance_pc, ← hi,
      State.byteAt_bulkIndex, State.byteAt_bulkIndex, ← hbyte (k := 0#4) (Nat.zero_le _), ← hbyte (k := 1#4) hx]
    rfl

end Sys2Proof.Machine
end

section
/-! PROOFS. The decoder on the word of an instruction, the words each family decodes, and the step over a word that
does not decode (spec/30_encoding.md R121 to R134; spec/40_step_cycle.md R166, R167). -/

namespace Sys2Proof

open Sys2Proof.Machine

variable {ext : Bool} {w : Word}

/-! ### The decoder by family (R125) -/

theorem decode_family0 (h : opF w = 0x0#4) : decode ext w = decode0 ext w := by simp [decode, h]

theorem decode_family5 (h : opF w = 0x5#4) :
    decode ext w = if opN w = 0x0#4 then .ok (.seReg (opX w) (opY w)) else .error .family5 := by
  simp [decode, h]

theorem decode_family8 (h : opF w = 0x8#4) : decode ext w = decode8 (opX w) (opY w) (opN w) := by simp [decode, h]

theorem decode_family9 (h : opF w = 0x9#4) :
    decode ext w = if opN w = 0x0#4 then .ok (.sneReg (opX w) (opY w)) else .error .family9 := by
  simp [decode, h]

theorem decode_familyE (h : opF w = 0xE#4) : decode ext w = decodeE (opX w) (opNN w) := by simp [decode, h]

theorem decode_familyF (h : opF w = 0xF#4) : decode ext w = decodeF ext (opX w) (opNN w) := by simp [decode, h]

/-- The pattern 00CN, which fixes the upper twelve bits. -/
theorem extractLsb'_eq_00C_iff : w.extractLsb' 4 12 = 0x00C#12 ↔ w.toNat / 16 = 0xC := by
  have := w.isLt
  rw [← BitVec.toNat_inj, BitVec.extractLsb'_toNat, Nat.shiftRight_eq_div_pow, BitVec.toNat_ofNat]
  omega

theorem decode0_of_00C (h : w.toNat / 16 = 0xC) : decode0 ext w = ifExtended ext (.scd (opN w)) := by
  have hE0 : w ≠ 0x00E0#16 := by rintro rfl; simp at h
  have hEE : w ≠ 0x00EE#16 := by rintro rfl; simp at h
  rw [decode0, if_neg hE0, if_neg hEE, if_pos (extractLsb'_eq_00C_iff.2 h)]

/-! ### The round trips (R124, R130, R134) -/

/-- The decoder reads the word of an instruction back, unless the instruction is one that only `Extended` has. -/
theorem decode_encode (ext : Bool) (i : Instr) :
    decode ext (encode i) = if i.extendedOnly then ifExtended ext i else .ok i := by
  cases i with
  | cls | ret | scr | scl | exit | low | high => rfl
  | scd n =>
    have h : (packXYN 0x0#4 0x0#4 0xC#4 n).toNat / 16 = 0xC := by rw [packXYN_toNat]; simp; omega
    rw [encode, decode_family0 (opF_packXYN ..), decode0_of_00C h, opN_packXYN]
    rfl
  | jp _ | call _ | seImm _ _ | sneImm _ _ | ldImm _ _ | addImm _ _ | ldI _ | jpOff _ | rnd _ _ | drw _ _ _ =>
    simp [encode, decode, Instr.extendedOnly]
  | seReg x y => simp [encode, decode_family5, Instr.extendedOnly]
  | sneReg x y => simp [encode, decode_family9, Instr.extendedOnly]
  | ldReg x y | or x y | and x y | xor x y | addReg x y | sub x y | shr x y | subn x y | shl x y =>
    simp [encode, decode_family8, decode8, Instr.extendedOnly]
  | skp x | sknp x => simp [encode, decode_familyE, decodeE, Instr.extendedOnly]
  | ldFromDt x | ldK x | ldDt x | ldSt x | addI x | ldF x | ldHf x | ldB x | ldStore x | ldLoad x =>
    simp [encode, decode_familyF, decodeF, Instr.extendedOnly]

theorem decode_encode_eq_ok_iff {i : Instr} :
    decode ext (encode i) = .ok i ↔ (i.extendedOnly = true → ext = true) := by
  rw [decode_encode, ifExtended]
  cases i.extendedOnly <;> cases ext <;> simp

theorem wellFormed_iff {v : Variant} {i : Instr} :
    i.wellFormed v = true ↔ (i.extendedOnly = true → (quirksOf v).extendedOpcodes = true) := by
  cases v <;> simp [Instr.wellFormed]

/-- Settles O1: a variant decodes the words of exactly the instructions that it has. -/
theorem decodeOfEncode : Obligations.DecodeOfEncode := fun _ _ h =>
  decode_encode_eq_ok_iff.2 (wellFormed_iff.1 h)

/-- Settles O2: the word is the instruction's, so the variant decodes the instruction's word, so it has it. -/
theorem encodeOfDecode : Obligations.EncodeOfDecode := by
  intro v w i h
  obtain rfl := encode_of_decode h
  exact ⟨rfl, wellFormed_iff.2 (decode_encode_eq_ok_iff.1 h)⟩

/-- Settles O3, each word by evaluation. -/
theorem writtenWordsDecode : Obligations.WrittenWordsDecode := ⟨by decide, by decide, by decide⟩

/-! ### The words that decode (R127 to R129) -/

/-- A test of the decoder, passed or failed, on the way to an instruction. -/
theorem exists_ite_eq_ok {ε α : Type} {p : Prop} [Decidable p] {a b : Except ε α} :
    (∃ i, (if p then a else b) = .ok i) ↔ p ∧ (∃ i, a = .ok i) ∨ ¬ p ∧ ∃ i, b = .ok i := by
  split <;> simp [*]

theorem exists_ifExtended_eq_ok {i : Instr} : (∃ j, ifExtended ext i = .ok j) ↔ ext = true := by
  cases ext <;> simp [ifExtended]

theorem exists_decode0_eq_ok : (∃ i, decode0 ext w = .ok i) ↔ w.toNat = 0x00E0 ∨ w.toNat = 0x00EE ∨
    (ext = true ∧ (w.toNat / 16 = 0x00C ∨ (0x00FB ≤ w.toNat ∧ w.toNat ≤ 0x00FF))) := by
  simp only [decode0, exists_ite_eq_ok, exists_ifExtended_eq_ok, extractLsb'_eq_00C_iff]
  cases ext <;> simp [← BitVec.toNat_inj] <;> omega

theorem exists_decode8_eq_ok {x y n : Nibble} :
    (∃ i, decode8 x y n = .ok i) ↔ n.toNat ≤ 7 ∨ n.toNat = 0xE := by
  simp [decode8, exists_ite_eq_ok, ← BitVec.toNat_inj]
  omega

theorem exists_decodeE_eq_ok {x : Nibble} {nn : Byte} :
    (∃ i, decodeE x nn = .ok i) ↔ nn.toNat = 0x9E ∨ nn.toNat = 0xA1 := by
  simp [decodeE, exists_ite_eq_ok, ← BitVec.toNat_inj]
  omega

theorem exists_decodeF_eq_ok {x : Nibble} {nn : Byte} : (∃ i, decodeF ext x nn = .ok i) ↔
    nn.toNat ∈ [0x07, 0x0A, 0x15, 0x18, 0x1E, 0x29, 0x33, 0x55, 0x65] ∨ (ext = true ∧ nn.toNat = 0x30) := by
  simp only [decodeF, exists_ite_eq_ok, exists_ifExtended_eq_ok, ← BitVec.toNat_inj]
  cases ext <;> simp <;> omega

theorem opF_eq_ofNat {f : Nat} (h : w.toNat / 4096 = f) : opF w = BitVec.ofNat 4 f := by
  apply BitVec.eq_of_toNat_eq
  rw [opF_toNat, BitVec.toNat_ofNat, h, Nat.mod_eq_of_lt (by omega)]

/-- Settles O4, family by family of the decoder. -/
theorem illegalSubcodes : Obligations.IllegalSubcodes := by
  intro ext w
  refine ⟨fun h => ?_, ?_, fun h => ?_, fun h => ?_, fun h => ?_, fun h => ?_⟩
  · rw [decode_family0 (opF_eq_ofNat h), exists_decode0_eq_ok]
  · rintro (h | h)
    · rw [decode_family5 (opF_eq_ofNat h), exists_ite_eq_ok, ← BitVec.toNat_inj, opN_toNat]; simp
    · rw [decode_family9 (opF_eq_ofNat h), exists_ite_eq_ok, ← BitVec.toNat_inj, opN_toNat]; simp
  · rw [decode_family8 (opF_eq_ofNat h), exists_decode8_eq_ok, opN_toNat]
  · rw [decode_familyE (opF_eq_ofNat h), exists_decodeE_eq_ok, opNN_toNat]
  · rw [decode_familyF (opF_eq_ofNat h), exists_decodeF_eq_ok, opNN_toNat]
  · simp only [List.mem_cons, List.not_mem_nil, or_false] at h
    rcases h with h | h | h | h | h | h | h | h | h | h <;> simp [decode, opF_eq_ofNat h]

end Sys2Proof

namespace Sys2Proof.Machine

variable {s : State} {i : Instr}

/-! ### Steps that take FatalDecode (R130, R131) -/

theorem faultEntry_takeFault (s : State) (e : Trap) (op : Option Word) :
    FaultEntry s (s.takeFault e op) e.cause op e.info :=
  ⟨onlyChanges_takeFault s e op, rfl, rfl⟩

/-- The fault a step takes when its word does not decode. -/
theorem step_of_decode_error {e : Illegal} (hs : s.status = .running) (hf : s.fetchInRange)
    (hd : decode s.quirks.extendedOpcodes s.wordAtPc = .error e) :
    step s = .next (s.takeFault ⟨.fatalDecode, none⟩ (some s.wordAtPc)) := by
  simp only [step, hs, State.fetch_wordAtPc hf, hd]

/-- Settles O7: the word is fetched, and the decoder's refusal leads to fault entry. -/
theorem illegalWordFaults : Obligations.IllegalWordFaults := fun s _ hs hf hd =>
  ⟨_, step_of_decode_error hs hf hd, faultEntry_takeFault s _ _⟩

theorem extendedOnly_iff : i.extendedOnly = true ↔
    (∃ n, i = .scd n) ∨ i = .scr ∨ i = .scl ∨ i = .exit ∨ i = .low ∨ i = .high ∨ ∃ x, i = .ldHf x := by
  cases i <;> simp [Instr.extendedOnly]

/-- Where the capability switch is off, a body that begins by asking for it faults. -/
theorem runInstr_requireExtended {f : State → Except Trap State} (h : s.quirks.extendedOpcodes = false) :
    runInstr i s (fun t => t.requireExtended >>= f) = .next (s.takeFault ⟨.fatalDecode, none⟩ (some (encode i))) :=
  runInstr_error (by rw [requireExtended_error (s := s.advance) h]; rfl)

theorem exec_extendedOnly (hi : i.extendedOnly = true) (h : s.quirks.extendedOpcodes = false) :
    exec i s = .next (s.takeFault ⟨.fatalDecode, none⟩ (some (encode i))) := by
  obtain ⟨n, rfl⟩ | rfl | rfl | rfl | rfl | rfl | ⟨x, rfl⟩ := extendedOnly_iff.1 hi <;>
    exact runInstr_requireExtended h

/-- Settles O10: the decoder by its round trip, the step by O7. -/
theorem extendedOnlyFaultsInBase : Obligations.ExtendedOnlyFaultsInBase := by
  refine ⟨fun s i hi => ?_, fun w i h => ?_⟩
  · have hx : i.extendedOnly = true := extendedOnly_iff.2 hi
    have hd : decode false (encode i) = .error .extendedOnly := by rw [decode_encode, hx]; rfl
    refine ⟨decode_encode_eq_ok_iff.2 fun _ => rfl, hd, fun hb => ?_⟩
    have hq : s.quirks.extendedOpcodes = false := by simp [State.quirks, hb]
    refine ⟨⟨_, exec_extendedOnly hx hq, faultEntry_takeFault s _ _⟩, fun hs hf hw => ?_⟩
    rw [← hw] at hd ⊢
    exact illegalWordFaults s _ hs hf (hq ▸ hd)
  · obtain rfl := encode_of_decode h
    exact decode_encode_eq_ok_iff.2 fun _ => rfl

end Sys2Proof.Machine
end

section
/-! PROOFS. The step cycle: what a step answers in each case, the fetch, precise faults, halting, and the timers and
keys that a step leaves alone (spec/40_step_cycle.md R160 to R172). -/

namespace Sys2Proof.Machine

variable {s t : State} {i : Instr}

/-! ### What a step answers (R160, R161, R165, R372) -/

theorem step_of_halted (h : s.Halted) : step s = .next s := by
  unfold step
  cases hs : s.status with
  | running => exact absurd hs h
  | terminated | faulted => rfl

/-- The fault a step takes when a byte of its word is outside memory. -/
theorem step_of_not_fetchInRange (hs : s.status = .running) (hf : ¬ s.fetchInRange) :
    step s = .next (s.takeFault ⟨.memoryBounds, some (max s.pc.toNat memSize)⟩ none) := by
  simp only [step, hs, State.fetch_error hf]

theorem exec_next (i : Instr) (s : State) : ∃ t, exec i s = .next t := by
  obtain ⟨body, hbody⟩ := exec_runs i s
  exact hbody ▸ runInstr_next i s body

theorem step_next (s : State) : ∃ t, step s = .next t := by
  by_cases hs : s.status = .running
  · by_cases hf : s.fetchInRange
    · cases hd : decode s.quirks.extendedOpcodes s.wordAtPc with
      | error e => exact ⟨_, step_of_decode_error hs hf hd⟩
      | ok i => exact step_of_decode hs hf hd ▸ exec_next i s
    · exact ⟨_, step_of_not_fetchInRange hs hf⟩
  · exact ⟨s, step_of_halted hs⟩

/-- Settles O9, the step by its cases and exec by `runInstr`. -/
theorem everyStepAnswersNext : Obligations.EveryStepAnswersNext := ⟨step_next, exec_next⟩

/-- Settles O5. -/
theorem stepRunsDecodedInstruction : Obligations.StepRunsDecodedInstruction := fun _ _ hs hf hd =>
  step_of_decode hs hf hd

/-! ### The fetch (R161) -/

/-- The first address outside memory of a fetch that leaves it. -/
theorem max_memSize_of_not_fetchInRange (h : ¬ s.fetchInRange) :
    max s.pc.toNat memSize = if s.pc.toNat ≥ 4096 then s.pc.toNat else s.pc.toNat + 1 := by
  have hout : ¬ s.pc.toNat + 1 < 4096 := h
  change max s.pc.toNat 4096 = _
  split <;> omega

/-- Settles O6: the word of the fetch, and the fault entry of a fetch that leaves memory. -/
theorem fetchRule : Obligations.FetchRule := fun s =>
  ⟨fun hf => ⟨State.fetch_wordAtPc hf, s.wordAtPc_toNat⟩, fun hs hf =>
    ⟨_, step_of_not_fetchInRange hs hf, max_memSize_of_not_fetchInRange hf ▸ faultEntry_takeFault s _ _⟩⟩

/-! ### Precise faults (R166) -/

/-- A step that ends Faulted is fault entry, whatever raised the fault: an outcome leaves no machine Faulted. -/
theorem step_faulted (hs : s.status = .running) (h : step s = .next t) (ht : t.status = .faulted) :
    ∃ e, t = s.takeFault e (if s.pc.toNat + 1 < memSize then some s.wordAtPc else none) := by
  obtain ⟨hn, _⟩ | ⟨_, hf, rfl⟩ | ⟨_, hf, _, _, rfl⟩ | ⟨_, hf, i, hd, he⟩ := step_cases h
  · exact absurd hs hn
  · exact ⟨_, congrArg (s.takeFault _) (if_neg hf).symm⟩
  · exact ⟨_, congrArg (s.takeFault _) (if_pos hf).symm⟩
  · obtain ⟨e, rfl⟩ | ⟨ho, hc⟩ := exec_ends he
    · exact ⟨e, encode_of_decode hd ▸ congrArg (s.takeFault e) (if_pos hf).symm⟩
    · obtain hst | hst := outcome_status ho hc <;> simp [ht, hs] at hst

/-- Settles O8: the step was fault entry, which has this frame and this record. -/
theorem faultsArePrecise : Obligations.FaultsArePrecise := by
  intro s t hs h ht
  obtain ⟨e, rfl⟩ := step_faulted hs h ht
  exact ⟨onlyChanges_takeFault s e _, e.cause, e.info, rfl⟩

/-! ### Halting (R160, R380) -/

theorem onlyChanges_tickDelay (s : State) : OnlyChanges s s.tickDelay [.delayTimer] := by
  unfold State.tickDelay
  split
  · exact OnlyChanges.rfl
  · exact onlyChanges_setDt s _

theorem onlyChanges_tickSound (s : State) : OnlyChanges s s.tickSound [.events, .soundTimer] := by
  unfold State.tickSound
  split
  · exact OnlyChanges.rfl
  · exact (onlyChanges_emit s _).append (onlyChanges_setSt _ _)

theorem onlyChanges_tickStop (s : State) : OnlyChanges s s.tickStop [.events] := by
  unfold State.tickStop
  split
  · exact onlyChanges_emit s _
  · exact OnlyChanges.rfl

/-- The frame of a tick (R390). -/
theorem onlyChanges_tick (s : State) :
    OnlyChanges s s.tickDelay.tickSound.tickStop [.delayTimer, .soundTimer, .events] :=
  (((onlyChanges_tickDelay s).append (onlyChanges_tickSound _)).append (onlyChanges_tickStop _)).mono (by decide)

/-- No host operation but Reset touches the halt of a halted machine: Step changes nothing, and the others never
write the status or the record. -/
theorem hostStep_keeps_halt {op : HostOp} (hs : s.Halted) (hop : op ≠ .reset) (h : hostStep op s = .next t) :
    t.status = s.status ∧ t.fault = s.fault := by
  cases op with
  | load bytes => rw [(hostLoad_next h).2, State.storeBytes_eq]; exact ⟨rfl, rfl⟩
  | step => cases (step_of_halted hs).symm.trans h; exact ⟨rfl, rfl⟩
  | tick => cases h; exact ⟨onlyChanges_tick s .status (by decide), onlyChanges_tick s .faultRecord (by decide)⟩
  | setKey k pressed => obtain ⟨_, rfl⟩ := hostSetKey_next h; exact ⟨rfl, rfl⟩
  | readDisplay => cases h; exact ⟨rfl, rfl⟩
  | reset => exact absurd rfl hop

theorem hostRun_keeps_halt (ops : List HostOp) : ∀ s : State, s.Halted → .reset ∉ ops → hostRun ops s = .next t →
    t.status = s.status ∧ t.fault = s.fault := by
  induction ops with
  | nil => intro s _ _ h; cases h; exact ⟨rfl, rfl⟩
  | cons op ops ih =>
    intro s hs hops h
    obtain ⟨hop, hops⟩ := List.ne_and_not_mem_of_not_mem_cons hops
    obtain ⟨u, hu, h⟩ := hostRun_cons h
    obtain ⟨hstatus, hfault⟩ := hostStep_keeps_halt hs (Ne.symm hop) hu
    have hhalted : u.Halted := fun hr => hs (hstatus ▸ hr)
    exact (ih u hhalted hops h).imp (·.trans hstatus) (·.trans hfault)

/-- Settles O23: the step while halted, the runs without a Reset by induction, and Reset itself. -/
theorem haltLeftOnlyByReset : Obligations.HaltLeftOnlyByReset := fun s hs =>
  ⟨step_of_halted hs, fun ops _ hops h => hostRun_keeps_halt ops s hs hops h, s.hostReset, rfl, rfl, rfl⟩

/-! ### Who writes the timers and the keys (R45, R56, R170) -/

theorem mem_mayWrite_delayTimer (h : .delayTimer ∈ mayWrite s i) : ∃ x, i = .ldDt x := by
  cases i <;> simp [mayWrite, apply_ite (StatePart.delayTimer ∈ ·)] at h ⊢

theorem mem_mayWrite_soundTimer (h : .soundTimer ∈ mayWrite s i) : ∃ x, i = .ldSt x := by
  cases i <;> simp [mayWrite, apply_ite (StatePart.soundTimer ∈ ·)] at h ⊢

theorem not_mem_mayWrite_key {k : Fin 16} : .key k ∉ mayWrite s i := by
  cases i <;> simp [mayWrite, apply_ite (StatePart.key k ∈ ·)]

/-- FX0A alone, and only where `KEYWAIT_CONSUMES` says so (D12). -/
theorem mem_mayWrite_prevKey {k : Fin 16} (h : .prevKey k ∈ mayWrite s i) : s.cfg.keywaitConsumes = true := by
  cases i <;> simp [mayWrite, apply_ite (StatePart.prevKey k ∈ ·)] at h
  exact h

theorem step_key (h : step s = .next t) : t.key = s.key := by
  refine Vector.ext fun k hk => by_contra fun hne => ?_
  obtain ⟨i, _, hm, _⟩ := step_writes (p := .key ⟨k, hk⟩) h (by simp) hne
  exact not_mem_mayWrite_key hm

theorem step_prevKey (h : step s = .next t) (hc : s.cfg.keywaitConsumes = false) : t.prevKey = s.prevKey := by
  refine Vector.ext fun k hk => by_contra fun hne => ?_
  obtain ⟨i, _, hm, _⟩ := step_writes (p := .prevKey ⟨k, hk⟩) h (by simp) hne
  simp [mem_mayWrite_prevKey hm] at hc

theorem step_writes_dt (h : step s = .next t) (hne : t.dt ≠ s.dt) : ∃ x, s.wordAtPc = encode (.ldDt x) := by
  obtain ⟨i, hw, hm, _⟩ := step_writes (p := .delayTimer) h (by decide) hne
  obtain ⟨x, rfl⟩ := mem_mayWrite_delayTimer hm
  exact ⟨x, hw⟩

theorem step_writes_st (h : step s = .next t) (hne : t.st ≠ s.st) : ∃ x, s.wordAtPc = encode (.ldSt x) := by
  obtain ⟨i, hw, hm, _⟩ := step_writes (p := .soundTimer) h (by decide) hne
  obtain ⟨x, rfl⟩ := mem_mayWrite_soundTimer hm
  exact ⟨x, hw⟩

/-- Settles O53, part by part: each timer is in one instruction's frame, no key is in any. -/
theorem stepKeepsTimersAndKeys : Obligations.StepKeepsTimersAndKeys := fun _ _ h =>
  ⟨step_key h, step_prevKey h, step_writes_dt h, step_writes_st h⟩

end Sys2Proof.Machine
end

section
/-! PROOFS. Control transfer: jumps, calls, returns and skips, each as the equation of what exec answers and its frame
(spec/41_control_flow.md R180 to R189). -/

namespace Sys2Proof.Machine

variable {s t : State} {i : Instr}

/-! ### Calls and returns (R182, R184) -/

/-- The frame of a body that ends by setting `pc`. -/
theorem onlyChanges_advance_setPc {ps : List StatePart} (h : OnlyChanges s.advance t ps) (w : Word) :
    OnlyChanges s (t.setPc w) (.pc :: ps) :=
  (changes_after_advance h).trans ((onlyChanges_setPc t w).mono (by simp))

theorem exec_call_of_push_ok {nnn : Addr} (h : s.advance.push (s.pc + 2) = .ok t) :
    exec (.call nnn) s = .next (t.setPc (nnn.setWidth 16)) := by
  rw [exec, execCall]
  exact runInstr_ok (by rw [State.advance_pc, h]; rfl)

theorem exec_call_of_push_error {nnn : Addr} {e : Trap} (h : s.advance.push (s.pc + 2) = .error e) :
    exec (.call nnn) s = .next (s.takeFault e (some (encode (.call nnn)))) := by
  rw [exec, execCall]
  exact runInstr_error (by rw [State.advance_pc, h]; rfl)

theorem exec_ret_of_pop_ok {r : Word × State} (h : s.advance.pop = .ok r) : exec .ret s = .next (r.2.setPc r.1) := by
  rw [exec, execRet]
  exact runInstr_ok (by rw [h]; rfl)

theorem exec_ret_of_pop_error {e : Trap} (h : s.advance.pop = .error e) :
    exec .ret s = .next (s.takeFault e (some (encode .ret))) := by
  rw [exec, execRet]
  exact runInstr_error (by rw [h]; rfl)

/-- Settles O25, by the two answers of the push. -/
theorem callRule : Obligations.CallRule := by
  refine fun nnn s => ⟨packNNN_toNat 0x2#4 nnn, fun h => ?_, fun h => ?_⟩
  · have hpush := State.push_ok (s := s.advance) (s.pc + 2) h
    obtain ⟨_, hframe⟩ := onlyChanges_push hpush
    refine ⟨_, exec_call_of_push_ok hpush, onlyChanges_advance_setPc hframe _, ?_, rfl, ?_⟩
    · simp; omega
    · simp
  · have hpush := State.push_error (s := s.advance) (s.pc + 2) h.not_lt
    exact ⟨_, exec_call_of_push_error hpush, faultEntry_takeFault s _ _⟩

/-- Settles O26, by the two answers of the pop. -/
theorem returnRule : Obligations.ReturnRule := by
  refine fun s => ⟨rfl, fun h => ?_, fun h => ?_⟩
  · have hpop := State.pop_ok (s := s.advance) h
    exact ⟨_, exec_ret_of_pop_ok hpop, onlyChanges_advance_setPc (onlyChanges_pop hpop) _, rfl, rfl⟩
  · have hpop := State.pop_error (s := s.advance) h.not_gt
    exact ⟨_, exec_ret_of_pop_error hpop, faultEntry_takeFault s _ _⟩

/-! ### Skips (R180, R186 to R189) -/

/-- What a skip does with `pc`, where its test `b` decides the rule's condition `p`. -/
theorem completes_skip {p : Prop} [Decidable p] {b : Bool} (h : exec i s = .next (s.advance.skipIf b))
    (hb : b = true ↔ p) : Completes i s [.pc] fun t => t.pc = if p then s.pc + 2 + 2 else s.pc + 2 := by
  refine ⟨_, h, (onlyChanges_advance s).trans (onlyChanges_skipIf _ b), ?_⟩
  rw [State.skipIf_eq]
  simp [hb]

/-- The low nibble of the words of 5XY0 and 9XY0 is part of their pattern (R128). -/
theorem decode_error_of_skipRegister_family {ext : Bool} {w : Word} (hw : w.toNat / 4096 = 5 ∨ w.toNat / 4096 = 9)
    (hn : w.toNat % 16 ≠ 0) : ∃ e, decode ext w = .error e := by
  have hopN : opN w ≠ 0x0#4 := fun h => hn ((opN_toNat w).symm.trans (congrArg BitVec.toNat h))
  rcases hw with hf | hf
  · exact ⟨.family5, (decode_family5 (opF_eq_ofNat hf)).trans (if_neg hopN)⟩
  · exact ⟨.family9, (decode_family9 (opF_eq_ofNat hf)).trans (if_neg hopN)⟩

/-- Settles O28: two skips, and a word of their families that does not decode. -/
theorem skipRegisterRule : Obligations.SkipRegisterRule := fun x y s =>
  ⟨packXYN_toNat 0x5#4 x y 0x0#4, packXYN_toNat 0x9#4 x y 0x0#4, completes_skip rfl beq_iff_eq,
    completes_skip rfl bne_iff_ne, fun hs hf hw hn =>
      have ⟨e, hd⟩ := decode_error_of_skipRegister_family hw hn
      illegalWordFaults s e hs hf hd⟩

/-- Settles O27: two skips. -/
theorem skipImmediateRule : Obligations.SkipImmediateRule := fun x nn _ =>
  ⟨packXNN_toNat 0x3#4 x nn, packXNN_toNat 0x4#4 x nn, completes_skip rfl beq_iff_eq, completes_skip rfl bne_iff_ne⟩

/-! ### Jumps (R183, R185) -/

theorem completes_setPc {w : Word} {P : State → Prop} (h : exec i s = .next (s.setPc w)) (hP : P (s.setPc w)) :
    Completes i s [.pc] P :=
  ⟨_, h, onlyChanges_setPc s w, hP⟩

/-- The sum is below 0x10000, so it is the target without reduction (D19). -/
theorem State.jumpOffTarget_toNat (s : State) (nnn : Addr) :
    (s.jumpOffTarget nnn).toNat = nnn.toNat + (s.getV (s.jumpRegister nnn)).toNat := by
  simp [State.jumpOffTarget]
  omega

theorem State.jumpRegister_base (nnn : Addr) (h : s.cfg.variant = .base) : s.jumpRegister nnn = 0#4 := by
  simp [State.jumpRegister, State.quirks, h]

theorem State.jumpRegister_extended (nnn : Addr) (h : s.cfg.variant = .extended) :
    s.jumpRegister nnn = BitVec.ofNat 4 (nnn.toNat / 256) := by
  simp [State.jumpRegister, State.quirks, h, BitVec.extractLsb', Nat.shiftRight_eq_div_pow]

/-- Settles O24: each jump sets `pc` to its target, and the variant picks the register of the second. -/
theorem jumpRule : Obligations.JumpRule := by
  refine fun nnn s => ⟨packNNN_toNat 0x1#4 nnn, packNNN_toNat 0xB#4 nnn, completes_setPc rfl ?_,
    completes_setPc rfl ⟨fun h => ?_, fun h => ?_⟩⟩
  · simp; omega
  · exact State.jumpRegister_base nnn h ▸ s.jumpOffTarget_toNat nnn
  · exact State.jumpRegister_extended nnn h ▸ s.jumpOffTarget_toNat nnn

end Sys2Proof.Machine
end

section
/-! PROOFS. Register loads and the ALU: an instruction ends by writing one register, or a result and then its flag; its
values follow by arithmetic (spec/42_alu.md R220 to R233). -/

namespace Sys2Proof.Machine

variable {s : State} {i : Instr} {x : Nibble} {r : Byte}

/-! ### The two ways to end: a plain destination, a result and its flag (R32, R168) -/

theorem Completes.imp {ps : List StatePart} {P Q : State → Prop} (h : Completes i s ps P) (hPQ : ∀ t, P t → Q t) :
    Completes i s ps Q :=
  have ⟨t, he, hf, hP⟩ := h
  ⟨t, he, hf, hPQ t hP⟩

theorem completes_setV (h : exec i s = .next (s.advance.setV x r)) :
    Completes i s [.pc, .reg x] fun t => t.getV x = r ∧ t.pc = s.pc + 2 :=
  ⟨_, h, changes_after_advance (onlyChanges_setV _ x r), State.getV_setV_same _ x r, rfl⟩

theorem State.getV_setResultFlag_vf (s : State) (x : Nibble) (r : Byte) (b : Bool) :
    (s.setResultFlag x r b).getV vf = flagByte b := by
  rw [State.getV_setResultFlag, if_pos rfl]

theorem State.getV_setResultFlag_same (s : State) (r : Byte) (b : Bool) (hx : x ≠ vf) :
    (s.setResultFlag x r b).getV x = r := by
  rw [State.getV_setResultFlag, if_neg hx, if_pos rfl]

theorem completes_setResultFlag {b : Bool} (h : exec i s = .next (s.advance.setResultFlag x r b)) :
    Completes i s [.pc, .reg x, .reg vf] fun t =>
      (x ≠ vf → t.getV x = r) ∧ t.getV vf = flagByte b ∧ t.pc = s.pc + 2 :=
  ⟨_, h, changes_after_advance (onlyChanges_setResultFlag _ x r b), State.getV_setResultFlag_same _ r b,
    State.getV_setResultFlag_vf _ x r b, rfl⟩

/-- The same with the result and the flag as numbers, which is how the rules of arithmetic give them. -/
theorem completes_setResultFlag_toNat {b : Bool} {m f : Nat}
    (h : exec i s = .next (s.advance.setResultFlag x r b)) (hr : r.toNat = m) (hb : (flagByte b).toNat = f) :
    Completes i s [.pc, .reg x, .reg vf] fun t =>
      (x ≠ vf → (t.getV x).toNat = m) ∧ (t.getV vf).toNat = f ∧ t.pc = s.pc + 2 :=
  (completes_setResultFlag h).imp fun _ ⟨hx, hvf, hpc⟩ =>
    ⟨fun hne => (congrArg BitVec.toNat (hx hne)).trans hr, (congrArg BitVec.toNat hvf).trans hb, hpc⟩

/-! ### Flags as numbers (R221, R228 to R232) -/

theorem flagByte_carryOut_toNat (a b : Byte) :
    (flagByte (carryOut a b)).toNat = if a.toNat + b.toNat > 255 then 1 else 0 := by
  simp [flagByte_toNat, carryOut]

theorem flagByte_noBorrow_toNat (a b : Byte) :
    (flagByte (noBorrow a b)).toNat = if a.toNat ≥ b.toNat then 1 else 0 := by
  simp [flagByte_toNat, noBorrow]

theorem flagByte_getLsbD_toNat (b : Byte) (k : Nat) : (flagByte (b.getLsbD k)).toNat = b.toNat / 2 ^ k % 2 := by
  have hflag (f : Bool) : (flagByte f).toNat = f.toNat := by cases f <;> rfl
  exact (hflag _).trans (Nat.toNat_testBit b.toNat k)

theorem flagByte_shiftOutLsb_toNat (src : Byte) : (flagByte (shiftOutLsb src)).toNat = src.toNat % 2 := by
  rw [shiftOutLsb, flagByte_getLsbD_toNat, Nat.pow_zero, Nat.div_one]

/-- The quotient is below 2 already, the byte being below 256. -/
theorem flagByte_shiftOutMsb_toNat (src : Byte) : (flagByte (shiftOutMsb src)).toNat = src.toNat / 128 := by
  rw [shiftOutMsb, flagByte_getLsbD_toNat]
  omega

/-! ### Loads, immediates and the random byte (R222 to R224, R233) -/

/-- Settles O29: two writes of a plain destination. -/
theorem registerLoadRule : Obligations.RegisterLoadRule := fun x y nn _ =>
  ⟨packXNN_toNat 0x6#4 x nn, packXYN_toNat 0x8#4 x y 0x0#4, completes_setV rfl, completes_setV rfl⟩

/-- Settles O30: a write of a plain destination, whose value is the reduced sum. -/
theorem addImmediateRule : Obligations.AddImmediateRule := fun x nn s =>
  ⟨packXNN_toNat 0x7#4 x nn, (completes_setV rfl).imp fun _ ⟨hx, hpc⟩ =>
    ⟨(congrArg BitVec.toNat hx).trans (BitVec.toNat_add (s.getV x) nn), hpc⟩⟩

/-- Settles O35: a write of a plain destination, then the next draw. -/
theorem randomRule : Obligations.RandomRule := fun x nn s =>
  ⟨packXNN_toNat 0xC#4 x nn, _, rfl,
    changes_after_advance ((onlyChanges_setV _ x _).append (onlyChanges_nextDraw _)),
    State.getV_setV_same _ x (s.drawByte &&& nn), rfl, rfl⟩

/-! ### Logic (R225 to R227) -/

/-- The reset of VF is a flag that is always 0. -/
theorem State.setLogic_base (h : s.cfg.variant = .base) : s.setLogic x r = s.setResultFlag x r false := by
  simp [State.setLogic, State.quirks, h, State.setResultFlag, State.setFlag, flagByte]

theorem State.setLogic_extended (h : s.cfg.variant = .extended) : s.setLogic x r = s.setV x r := by
  simp [State.setLogic, State.quirks, h]

/-- How a logic instruction ends, by variant: a result and its flag, or a plain destination. -/
theorem completes_setLogic (h : exec i s = .next (s.advance.setLogic x r)) :
    (s.cfg.variant = .base → Completes i s [.pc, .reg x, .reg vf] fun t =>
      (x ≠ vf → t.getV x = r) ∧ t.getV vf = 0#8 ∧ t.pc = s.pc + 2) ∧
    (s.cfg.variant = .extended → Completes i s [.pc, .reg x] fun t => t.getV x = r ∧ t.pc = s.pc + 2) :=
  ⟨fun hv => completes_setResultFlag (b := false) (State.setLogic_base (s := s.advance) hv ▸ h),
    fun hv => completes_setV (State.setLogic_extended (s := s.advance) hv ▸ h)⟩

/-- Settles O31: each of the three instructions ends as a logic instruction does. -/
theorem logicRule : Obligations.LogicRule := by
  intro x y s
  simp only [List.forall_mem_cons]
  exact ⟨⟨packXYN_toNat 0x8#4 x y 0x1#4, completes_setLogic rfl⟩,
    ⟨packXYN_toNat 0x8#4 x y 0x2#4, completes_setLogic rfl⟩,
    ⟨packXYN_toNat 0x8#4 x y 0x3#4, completes_setLogic rfl⟩, List.forall_mem_nil _⟩

/-! ### Addition and subtraction (R228, R229, R231) -/

theorem byte_sub_toNat (a b : Byte) : (a - b).toNat = (a.toNat + 256 - b.toNat) % 256 := by
  bv_omega

/-- Settles O32: a result and its flag, the reduced sum and the carry. -/
theorem addRegisterRule : Obligations.AddRegisterRule := fun x y s =>
  ⟨packXYN_toNat 0x8#4 x y 0x4#4, completes_setResultFlag_toNat rfl (BitVec.toNat_add (s.getV x) (s.getV y))
    (flagByte_carryOut_toNat _ _)⟩

/-- Settles O33: a result and its flag twice, with minuend and subtrahend exchanged. -/
theorem subtractRule : Obligations.SubtractRule := by
  intro x y s
  simp only [List.forall_mem_cons]
  exact ⟨⟨packXYN_toNat 0x8#4 x y 0x5#4, completes_setResultFlag_toNat rfl (byte_sub_toNat _ _)
      (flagByte_noBorrow_toNat _ _)⟩,
    ⟨packXYN_toNat 0x8#4 x y 0x7#4, completes_setResultFlag_toNat rfl (byte_sub_toNat _ _)
      (flagByte_noBorrow_toNat _ _)⟩,
    List.forall_mem_nil _⟩

/-! ### Shifts (R230, R232) -/

theorem State.shiftSource_eq (s : State) (x y : Nibble) :
    s.shiftSource x y = if s.cfg.variant = .base then s.getV y else s.getV x := by
  simp [State.shiftSource, State.quirks]

theorem byte_shiftRight_one_toNat (b : Byte) : (b >>> 1).toNat = b.toNat / 2 := by
  rw [BitVec.toNat_ushiftRight, Nat.shiftRight_eq_div_pow, Nat.pow_one]

theorem byte_shiftLeft_one_toNat (b : Byte) : (b <<< 1).toNat = b.toNat * 2 % 256 := by
  rw [BitVec.toNat_shiftLeft, Nat.shiftLeft_eq, Nat.pow_one]

/-- Settles O34: a result and its flag, from the source the variant picks. -/
theorem shiftRule : Obligations.ShiftRule := by
  intro x y s src hsrc
  obtain rfl : src = s.shiftSource x y := hsrc.trans (s.shiftSource_eq x y).symm
  exact ⟨packXYN_toNat 0x8#4 x y 0x6#4, packXYN_toNat 0x8#4 x y 0xE#4,
    completes_setResultFlag_toNat rfl (byte_shiftRight_one_toNat _) (flagByte_shiftOutLsb_toNat _),
    completes_setResultFlag_toNat rfl (byte_shiftLeft_one_toNat _) (flagByte_shiftOutMsb_toNat _)⟩

end Sys2Proof.Machine
end

section
/-! PROOFS. The index register and memory transfer: writes of I, glyph addresses, the decimal digits, and the two bulk
transfers, whose accesses either all lie inside memory or fault at the first that does not
(spec/43_index_memory.md R260 to R267). -/

namespace Sys2Proof.Machine

variable {s t : State} {i : Instr} {x : Nibble}

/-! ### The words of family F (R121, R124) -/

/-- The words of family F as the rules give them: the sub-code's word, and x above it. -/
theorem packXNN_familyF_toNat (x : Nibble) (nn : Byte) :
    (packXNN 0xF#4 x nn).toNat = 0xF000 + nn.toNat + x.toNat * 256 :=
  (packXNN_toNat 0xF#4 x nn).trans (Nat.add_right_comm ..)

/-! ### Writes of I (R260, R261) -/

/-- An instruction that ends by writing I, with the value as a number, which is how the rules give it. -/
theorem completes_setI {w : Word} {m : Nat} (h : exec i s = .next (s.advance.setI w)) (hw : w.toNat = m) :
    Completes i s [.pc, .index] fun t => t.i.toNat = m ∧ t.pc = s.pc + 2 :=
  ⟨_, h, changes_after_advance (onlyChanges_setI _ w), hw, rfl⟩

theorem word_add_byte_toNat (w : Word) (b : Byte) : (w + b.setWidth 16).toNat = (w.toNat + b.toNat) % 65536 := by
  rw [BitVec.toNat_add, BitVec.toNat_setWidth_of_le (by decide)]

/-- Settles O36: two writes of I, the second of the reduced sum. -/
theorem indexRule : Obligations.IndexRule := fun nnn x _ =>
  ⟨packNNN_toNat 0xA#4 nnn, packXNN_familyF_toNat x 0x1E#8,
    completes_setI rfl (BitVec.toNat_setWidth_of_le (by decide)), completes_setI rfl (word_add_byte_toNat _ _)⟩

/-! ### Glyph addresses (R262, R263, D14) -/

/-- The default mask takes the low nibble. -/
theorem State.fontDigit_eq_mod (h : s.cfg.fontDigitMask = 0x0F#8) (x : Nibble) :
    s.fontDigit x = (s.getV x).toNat % 16 := by
  rw [State.fontDigit, h, BitVec.toNat_and]
  exact Nat.and_two_pow_sub_one_eq_mod _ 4

/-- The address is far below 65536, so it is written without reduction. -/
theorem State.glyphLo_toNat (h : s.cfg.fontDigitMask = 0x0F#8) (x : Nibble) :
    (s.glyphLo x).toNat = 5 * ((s.getV x).toNat % 16) := by
  rw [State.glyphLo, State.fontDigit_eq_mod h, BitVec.toNat_ofNat, Nat.zero_add]
  omega

theorem State.glyphHi_toNat (h : s.cfg.fontDigitMask = 0x0F#8) (x : Nibble) :
    (s.glyphHi x).toNat = (s.cfg.fontHiBase + 10 * ((s.getV x).toNat % 16)) % 65536 := by
  rw [State.glyphHi, State.fontDigit_eq_mod h, BitVec.toNat_ofNat]

/-- FX30 where the capability switch is on takes no fault. -/
theorem exec_ldHf_next (h : s.quirks.extendedOpcodes = true) :
    exec (.ldHf x) s = .next (s.advance.setI (s.glyphHi x)) := by
  rw [exec, execLdHf]
  exact runInstr_ok (by rw [requireExtended_ok (s := s.advance) h]; rfl)

/-- Settles O37: two writes of I, the second asking for the capability switch. -/
theorem glyphAddressRule : Obligations.GlyphAddressRule := by
  refine fun x s hm => ⟨packXNN_familyF_toNat x 0x29#8, packXNN_familyF_toNat x 0x30#8,
    completes_setI rfl (State.glyphLo_toNat hm x), fun hv => ?_, fun hv => ?_⟩
  · have hq : s.quirks.extendedOpcodes = true := by simp [State.quirks, hv]
    refine (completes_setI (exec_ldHf_next hq) (State.glyphHi_toNat hm x)).imp fun t ⟨hi, hpc⟩ =>
      ⟨hi, fun hb => ?_, hpc⟩
    rw [hi, hb]
    omega
  · have hq : s.quirks.extendedOpcodes = false := by simp [State.quirks, hv]
    exact ⟨_, exec_extendedOnly rfl hq, faultEntry_takeFault s _ _⟩

/-! ### Bytes written or read at I: all of them, or a fault (R83, R376) -/

theorem State.memWrites_ok (s : State) {a : Nat} {bs : List Byte} (h : a + bs.length ≤ memSize) :
    s.memWrites a bs = .ok (s.storeBytes a bs) := by
  rw [State.memWrites_eq, if_pos (.inr h)]

theorem State.memWrites_error (s : State) {a : Nat} {bs : List Byte} (hne : bs ≠ []) (h : memSize < a + bs.length) :
    s.memWrites a bs = .error ⟨.memoryBounds, some (firstOutOfRange a)⟩ := by
  rw [State.memWrites_eq, if_neg (not_or.2 ⟨hne, h.not_ge⟩), firstOutOfRange]

theorem State.mem_bulkAddrs {a : Nat} : a ∈ s.bulkAddrs x ↔ ∃ k < x.toNat + 1, s.i.toNat + k = a := by
  simp [State.bulkAddrs]

theorem State.memReads_bulk_ok (h : s.i.toNat + x.toNat < memSize) :
    s.memReads (s.bulkAddrs x) = .ok ((s.bulkAddrs x).map s.byteAt) := by
  refine State.memReads_ok s fun a ha => ?_
  obtain ⟨k, hk, rfl⟩ := State.mem_bulkAddrs.1 ha
  omega

/-- The bytes are read upwards from I, so the first outside memory is at 4096, or at I when I is already outside. -/
theorem State.find?_bulkAddrs (h : memSize ≤ s.i.toNat + x.toNat) :
    (s.bulkAddrs x).find? (fun a => memSize ≤ a) = some (firstOutOfRange s.i.toNat) := by
  have hfirst : (List.range (x.toNat + 1)).find? ((fun a => decide (memSize ≤ a)) ∘ fun k => s.i.toNat + k) =
      some (memSize - s.i.toNat) := by
    simp only [List.find?_range_eq_some, Function.comp_apply, decide_eq_true_eq, List.mem_range,
      Bool.not_eq_true', decide_eq_false_iff_not]
    exact ⟨by omega, by omega, fun j hj => by omega⟩
  rw [State.bulkAddrs, List.find?_map, hfirst, Option.map_some, firstOutOfRange]
  exact congrArg some (by omega)

theorem State.memReads_bulk_error (h : memSize ≤ s.i.toNat + x.toNat) :
    s.memReads (s.bulkAddrs x) = .error ⟨.memoryBounds, some (firstOutOfRange s.i.toNat)⟩ := by
  rw [State.memReads_eq, State.find?_bulkAddrs h]

/-! ### The decimal digits (R264) -/

/-- The digits read back from where they are stored; each is below 256, so its byte is the digit. -/
theorem State.byteAt_storeBytes_bcdDigits (s : State) (a : Nat) (b : Byte) :
    ((s.storeBytes a (bcdDigits b)).byteAt a).toNat = b.toNat / 100 ∧
    ((s.storeBytes a (bcdDigits b)).byteAt (a + 1)).toNat = b.toNat / 10 % 10 ∧
    ((s.storeBytes a (bcdDigits b)).byteAt (a + 2)).toNat = b.toNat % 10 := by
  have hdigit {j d : Nat} (hj : j < 3) (hd : (bcdDigits b)[j]'hj = BitVec.ofNat 8 d) (h : d < 256) :
      ((s.storeBytes a (bcdDigits b)).byteAt (a + j)).toNat = d := by
    rw [State.byteAt_storeBytes_add s a hj, hd, BitVec.toNat_ofNat, Nat.mod_eq_of_lt h]
  exact ⟨hdigit (j := 0) (by decide) rfl (by omega), hdigit (j := 1) (by decide) rfl (by omega),
    hdigit (j := 2) (by decide) rfl (by omega)⟩

/-- FX33 whose three bytes are all inside memory takes no fault (R264). -/
theorem exec_ldB_next (h : s.i.toNat + 2 < memSize) :
    exec (.ldB x) s = .next (s.advance.storeBytes s.i.toNat (bcdDigits (s.getV x))) := by
  rw [exec, execLdB]
  exact runInstr_ok (State.memWrites_ok s.advance h)

/-- FX33 that leaves memory takes the fault of its first byte outside (R264). -/
theorem exec_ldB_fault (h : memSize ≤ s.i.toNat + 2) : exec (.ldB x) s =
    .next (s.takeFault ⟨.memoryBounds, some (firstOutOfRange s.i.toNat)⟩ (some (encode (.ldB x)))) := by
  rw [exec, execLdB]
  exact runInstr_error (State.memWrites_error s.advance (List.cons_ne_nil _ _) (Nat.lt_succ_of_le h))

/-- Settles O38: the three bytes stored, or the fault of the writes. -/
theorem bcdRule : Obligations.BcdRule := by
  refine fun x s => ⟨packXNN_familyF_toNat x 0x33#8, fun h => ?_, fun h => ?_⟩
  · obtain ⟨hhundreds, htens, hones⟩ := State.byteAt_storeBytes_bcdDigits s.advance s.i.toNat (s.getV x)
    exact ⟨_, exec_ldB_next h, changes_after_advance (onlyChanges_storeBytes _ _ _), hhundreds, htens, hones,
      State.storeBytes_pc ..⟩
  · exact ⟨_, exec_ldB_fault h, faultEntry_takeFault s _ _⟩

/-! ### The bulk transfers (R265, R266, R267) -/

theorem State.bulkIndex_i_base (h : s.cfg.variant = .base) (x : Nibble) :
    (s.bulkIndex x).i.toNat = (s.i.toNat + x.toNat + 1) % 65536 := by
  have hq : s.quirks.memoryIncrementOnBulkTransfer = true := by simp [State.quirks, h]
  rw [State.bulkIndex_eq, if_pos hq, State.setI_i]
  simp only [BitVec.toNat_add, BitVec.toNat_setWidth, BitVec.toNat_ofNat]
  omega

theorem State.bulkIndex_i_extended (h : s.cfg.variant = .extended) (x : Nibble) : (s.bulkIndex x).i = s.i := by
  have hq : ¬ s.quirks.memoryIncrementOnBulkTransfer = true := by simp [State.quirks, h]
  rw [State.bulkIndex_eq, if_neg hq, State.setI_i]

/-- How a bulk transfer ends: the parts it transfers, and then I by variant. -/
theorem completes_bulkIndex {ps : List StatePart} {P : State → Prop} (h : exec i s = .next (t.bulkIndex x))
    (hf : OnlyChanges s.advance t ps) (hps : ∀ p ∈ [.pc, .index, .config], p ∉ ps) (hP : P (t.bulkIndex x)) :
    Completes i s (.pc :: .index :: ps) fun u => P u ∧
      (s.cfg.variant = .base → u.i.toNat = (s.i.toNat + x.toNat + 1) % 65536) ∧
      (s.cfg.variant = .extended → u.i = s.i) ∧ u.pc = s.pc + 2 := by
  have hpc : t.pc = s.pc + 2 := hf .pc (hps _ (by simp))
  have hi : t.i = s.i := hf .index (hps _ (by simp))
  have hcfg : t.cfg = s.cfg := hf .config (hps _ (by simp))
  have hindex : OnlyChanges t (t.bulkIndex x) [.index] := State.bulkIndex_eq t x ▸ onlyChanges_setI t _
  refine ⟨_, h, ?_, hP, fun hv => ?_, fun hv => ?_, (State.bulkIndex_pc t x).trans hpc⟩
  · exact changes_after_advance ((hf.mono fun _ => List.mem_cons_of_mem _).trans (hindex.mono (by simp)))
  · rw [State.bulkIndex_i_base (hcfg ▸ hv), hi]
  · rw [State.bulkIndex_i_extended (hcfg ▸ hv), hi]

/-- FX55 that leaves memory takes the fault of its first byte outside (R265). -/
theorem exec_ldStore_fault (h : memSize ≤ s.i.toNat + x.toNat) : exec (.ldStore x) s =
    .next (s.takeFault ⟨.memoryBounds, some (firstOutOfRange s.i.toNat)⟩ (some (encode (.ldStore x)))) := by
  have hlen := State.length_vUpTo s.advance x
  rw [exec, execLdStore]
  apply runInstr_error
  rw [State.memWrites_error _ (List.ne_nil_of_length_eq_add_one hlen) (hlen ▸ Nat.lt_succ_of_le h)]
  rfl

/-- Settles O39: the registers stored, or the fault of the writes. -/
theorem bulkStoreRule : Obligations.BulkStoreRule := by
  refine fun x s => ⟨packXNN_familyF_toNat x 0x55#8, fun h => ?_, fun h => ?_⟩
  · have hframe := onlyChanges_storeBytes s.advance s.i.toNat (s.vUpTo x)
    rw [State.length_vUpTo] at hframe
    refine completes_bulkIndex (exec_ldStore_next h) hframe (by simp) fun k hk => ?_
    rw [State.byteAt_bulkIndex, State.byteAt_storeBytes_vUpTo _ _ _ hk]
  · exact ⟨_, exec_ldStore_fault h, faultEntry_takeFault s _ _⟩

@[simp] theorem State.getV_bulkIndex (s : State) (x k : Nibble) : (s.bulkIndex x).getV k = s.getV k := by
  rw [State.bulkIndex_eq]; rfl

@[simp] theorem State.length_bulkAddrs (s : State) (x : Nibble) : (s.bulkAddrs x).length = x.toNat + 1 := by
  simp [State.bulkAddrs]

/-- The register that FX65 loads from I + k. -/
theorem State.getV_loadRegs_bulkAddrs (s t : State) {x k : Nibble} (h : k.toNat ≤ x.toNat) :
    (t.loadRegs 0 ((s.bulkAddrs x).map s.byteAt)).getV k = s.byteAt (s.i.toNat + k.toNat) := by
  have hx := x.isLt
  have hlen : ((s.bulkAddrs x).map s.byteAt).length = x.toNat + 1 := by simp
  rw [State.getV_loadRegs _ _ _ _ (by omega), if_pos (by omega), Nat.sub_zero,
    List.getD_eq_getElem _ _ (by omega), List.getElem_map]
  simp [State.bulkAddrs]

/-- FX65 whose bytes are all inside memory takes no fault (R266). -/
theorem exec_ldLoad_next (h : s.i.toNat + x.toNat < memSize) :
    exec (.ldLoad x) s = .next ((s.advance.loadRegs 0 ((s.bulkAddrs x).map s.byteAt)).bulkIndex x) := by
  rw [exec, execLdLoad]
  apply runInstr_ok
  rw [State.memReads_bulk_ok (s := s.advance) h]
  rfl

/-- FX65 that leaves memory takes the fault of its first byte outside (R266). -/
theorem exec_ldLoad_fault (h : memSize ≤ s.i.toNat + x.toNat) : exec (.ldLoad x) s =
    .next (s.takeFault ⟨.memoryBounds, some (firstOutOfRange s.i.toNat)⟩ (some (encode (.ldLoad x)))) := by
  rw [exec, execLdLoad]
  apply runInstr_error
  rw [State.memReads_bulk_error (s := s.advance) h]
  rfl

/-- Settles O40: the registers loaded, or the fault of the reads. -/
theorem bulkLoadRule : Obligations.BulkLoadRule := by
  refine fun x s => ⟨packXNN_familyF_toNat x 0x65#8, fun h => ?_, fun h => ?_⟩
  · have hframe := onlyChanges_loadRegs s.advance x ((s.bulkAddrs x).map s.byteAt) (by simp)
    refine completes_bulkIndex (exec_ldLoad_next h) hframe (by simp) fun k hk => ?_
    rw [State.getV_bulkIndex, State.getV_loadRegs_bulkAddrs _ _ hk]
  · exact ⟨_, exec_ldLoad_fault h, faultEntry_takeFault s _ _⟩

end Sys2Proof.Machine
end

section
/-! PROOFS. The display: clearing, selecting a resolution, and drawing a sprite, whose covered cells are inverted; a
second draw of the same sprite covers the same cells, so it undoes the first (spec/44_display.md R290 to R300). -/

namespace Sys2Proof.Machine

variable {s t : State} {i : Instr} {m : Mode} {x y n : Nibble} {px py : Nat}

/-! ### Clearing and the resolution (R290, R298, R299) -/

/-- Settles O41: the cells are replaced by unset ones, as many as the mode has. -/
theorem clearRule : Obligations.ClearRule := fun s =>
  ⟨rfl, _, rfl, changes_after_advance (onlyChanges_setCells s.advance _), congrArg blankCells,
    congrArg blankCells, rfl⟩

theorem State.selectMode_clearing (h : s.cfg.clearOnSameMode = true) :
    s.selectMode m = s.setDisplay m (blankCells m) := by
  simp [State.selectMode, h]

/-- Where the capability switch is on, a body that only begins by asking for it takes no fault. -/
theorem runInstr_requireExtended_next {f : State → State} (h : s.quirks.extendedOpcodes = true) :
    runInstr i s (fun t => t.requireExtended >>= fun t => pure (f t)) = .next (f s.advance) :=
  runInstr_ok (by rw [requireExtended_ok (s := s.advance) h]; rfl)

/-- How an instruction that selects a resolution ends, by variant. -/
theorem completes_selectMode (hi : i.extendedOnly = true)
    (h : s.quirks.extendedOpcodes = true → exec i s = .next (s.advance.selectMode m)) :
    (s.cfg.variant = .extended → s.cfg.clearOnSameMode = true → Completes i s [.pc, .mode, .framebuffer] fun t =>
      t.mode = m ∧ t.fb = blankCells m ∧ t.pc = s.pc + 2) ∧
    (s.cfg.variant = .base → TakesFault i s .fatalDecode none) := by
  refine ⟨fun hv hc => ?_, fun hv => ?_⟩
  · have hq : s.quirks.extendedOpcodes = true := by simp [State.quirks, hv]
    rw [State.selectMode_clearing (s := s.advance) hc] at h
    exact ⟨_, h hq, changes_after_advance (onlyChanges_setDisplay _ m _), rfl, rfl, rfl⟩
  · have hq : s.quirks.extendedOpcodes = false := by simp [State.quirks, hv]
    exact ⟨_, exec_extendedOnly hi hq, faultEntry_takeFault s _ _⟩

/-- Settles O42: each of the two instructions selects its mode. -/
theorem resolutionRule : Obligations.ResolutionRule := by
  intro s
  simp only [List.forall_mem_cons]
  exact ⟨⟨rfl, completes_selectMode rfl runInstr_requireExtended_next⟩,
    ⟨rfl, completes_selectMode rfl runInstr_requireExtended_next⟩, List.forall_mem_nil _⟩

/-! ### Drawing (R291 to R297) -/

/-- The framebuffer and the collision flag that drawing the sprite at I leaves, where its bytes are all in memory. -/
def spriteDrawn (s : State) (x y n : Nibble) : List Bool × Bool :=
  toggleCells (spriteCells s x y n (drawnRows s y n)) s.fb

theorem visibleRows_advance (s : State) (y n : Nibble) : visibleRows s.advance y n = visibleRows s y n := rfl

/-- DXYN whose sprite bytes are all inside memory takes no fault. -/
theorem exec_drw_next (h : SpriteInRange s y n) : exec (.drw x y n) s =
    .next ((s.advance.setDisplay s.mode (spriteDrawn s x y n).1).setFlag (spriteDrawn s x y n).2) := by
  rw [exec, execDrw]
  apply runInstr_ok
  rw [spriteRows_advance, visibleRows_advance, spriteRows_ok s h]
  rfl

/-- DXYN that leaves memory takes the fault of its first byte outside. -/
theorem exec_drw_fault (h : ¬ SpriteInRange s y n) : exec (.drw x y n) s =
    .next (s.takeFault ⟨.memoryBounds, some (firstOutOfRange s.i.toNat)⟩ (some (encode (.drw x y n)))) := by
  rw [exec, execDrw]
  apply runInstr_error
  rw [spriteRows_advance, visibleRows_advance, spriteRows_error s h]
  rfl

/-- A covered cell is inverted and no other: each is toggled once. -/
theorem spriteDrawn_getD (hs : s.DisplayFits) (hx : px < s.mode.width) (hy : py < s.mode.height) :
    (spriteDrawn s x y n).1.getD (py * s.mode.width + px) false =
      (s.cell px py ^^ spriteCovers s x y n px py) := by
  have hj : py * s.mode.width + px < s.fb.length := hs ▸ cell_index_lt hx hy
  rw [spriteDrawn, toggleCells_getD _ _ _ (spriteCells_nodup s x y n) hj]
  simp only [mem_spriteCells s hx hy, State.cell]
  cases spriteCovers s x y n px py <;> simp

/-- The flag says whether a covered cell was set (R296). -/
theorem spriteDrawn_collides : (spriteDrawn s x y n).2 = true ↔ ∃ px py, px < s.mode.width ∧ py < s.mode.height ∧
    spriteCovers s x y n px py = true ∧ s.cell px py = true := by
  rw [spriteDrawn, toggleCells_hit _ _ (spriteCells_nodup s x y n)]
  constructor
  · rintro ⟨j, hj, hset⟩
    obtain ⟨px, py, hx, hy, rfl⟩ := spriteCells_cell s hj
    exact ⟨px, py, hx, hy, (mem_spriteCells s hx hy).1 hj, hset⟩
  · rintro ⟨px, py, hx, hy, hcov, hset⟩
    exact ⟨_, (mem_spriteCells s hx hy).2 hcov, hset⟩

theorem flagByte_eq_one_iff {b : Bool} : flagByte b = 1#8 ↔ b = true := by cases b <;> decide

theorem flagByte_eq_zero_iff {b : Bool} : flagByte b = 0#8 ↔ b = false := by cases b <;> decide

/-- How a draw ends whose sprite bytes are all inside memory. -/
theorem completes_drw (hs : s.DisplayFits) (h : SpriteInRange s y n) :
    Completes (.drw x y n) s [.pc, .framebuffer, .reg vf] fun t =>
      t.fb.length = s.fb.length ∧
      (∀ px py, px < s.mode.width → py < s.mode.height → t.cell px py = (s.cell px py ^^ spriteCovers s x y n px py)) ∧
      t.getV vf = flagByte (spriteDrawn s x y n).2 ∧ t.pc = s.pc + 2 :=
  ⟨_, exec_drw_next h, changes_after_advance ((onlyChanges_setCells s.advance _).append (onlyChanges_setV _ vf _)),
    toggleCells_length _ _, fun _ _ => spriteDrawn_getD hs, State.getV_setV_same _ vf _, rfl⟩

/-- Settles O43: the cells and the flag of the toggling, or the fault of the reads. -/
theorem drawRule : Obligations.DrawRule := by
  refine fun x y n s hs => ⟨packXYN_toNat 0xD#4 x y n, fun h => ?_, fun h => ?_⟩
  · refine (completes_drw hs h).imp fun t ⟨hlen, hcell, hvf, hpc⟩ => ⟨hlen, hcell, fun hhit => ?_, fun hmiss => ?_, hpc⟩
    · rw [hvf, flagByte_eq_one_iff, spriteDrawn_collides]
      exact hhit
    · rw [hvf, flagByte_eq_zero_iff, Bool.eq_false_iff, Ne, spriteDrawn_collides]
      rintro ⟨px, py, hx, hy, hcov, hset⟩
      simp [hmiss px py hx hy hcov] at hset
  · exact ⟨_, exec_drw_fault h, faultEntry_takeFault s _ _⟩

/-! ### Drawing twice (R300) -/

/-- Two framebuffers of one size that agree on every cell are equal. -/
theorem fb_eq_of_cells (hs : s.DisplayFits) (ht : t.DisplayFits) (hm : t.mode = s.mode)
    (h : ∀ px py, px < s.mode.width → py < s.mode.height → t.cell px py = s.cell px py) : t.fb = s.fb := by
  have hlen : t.fb.length = s.fb.length := by rw [hs, ht, hm]
  refine List.ext_getElem hlen fun j hjt hjs => ?_
  have hj : j < s.mode.width * s.mode.height := hs ▸ hjs
  have hcell := h (j % s.mode.width) (j / s.mode.width) (Nat.mod_lt _ (Mode.width_pos _)) (Nat.div_lt_of_lt_mul hj)
  simp only [State.cell, hm, Nat.div_add_mod'] at hcell
  rwa [List.getD_eq_getElem _ _ hjt, List.getD_eq_getElem _ _ hjs] at hcell

section
variable (hf : OnlyChanges s t [.pc, .framebuffer, .reg vf])
include hf

/-- A draw changes nothing that says which cells a sprite covers, unless VF holds its position. -/
theorem spriteCovers_of_draw_frame (hx : x ≠ vf) (hy : y ≠ vf) : spriteCovers t x y n = spriteCovers s x y n := by
  have hvx : t.getV x = s.getV x := hf (.reg x) (by simpa using hx)
  have hvy : t.getV y = s.getV y := hf (.reg y) (by simpa using hy)
  have hmode : t.mode = s.mode := hf .mode (by simp)
  have hi : t.i = s.i := hf .index (by simp)
  have hmem : t.byteAt = s.byteAt := funext fun a => hf (.memByte a) (by simp)
  funext px py
  simp only [spriteCovers, spriteRowBits, hvx, hvy, hmode, hi, hmem]

theorem spriteInRange_of_draw_frame (hy : y ≠ vf) (h : SpriteInRange s y n) : SpriteInRange t y n := by
  have hvy : t.getV y = s.getV y := hf (.reg y) (by simpa using hy)
  have hmode : t.mode = s.mode := hf .mode (by simp)
  have hi : t.i = s.i := hf .index (by simp)
  simpa only [SpriteInRange, spriteBytes, hvy, hmode, hi] using h

theorem displayFits_of_draw_frame (hlen : t.fb.length = s.fb.length) (hs : s.DisplayFits) : t.DisplayFits := by
  have hmode : t.mode = s.mode := hf .mode (by simp)
  rw [State.DisplayFits, hlen, hmode]
  exact hs

end

/-- Settles O44: the second draw covers the cells of the first, so it inverts each of them back, and it meets a set
cell exactly where the first draw met an unset one. -/
theorem drawTwiceRestores : Obligations.DrawTwiceRestores := by
  intro x y n s hx hy hs hr
  obtain ⟨t, het, hft, hlent, hcellt, -⟩ := completes_drw (x := x) hs hr
  have hts := displayFits_of_draw_frame hft hlent hs
  obtain ⟨u, heu, hfu, hlenu, hcellu, hvf, -⟩ := completes_drw (x := x) hts (spriteInRange_of_draw_frame hft hy hr)
  have hmode : t.mode = s.mode := hft .mode (by simp)
  have hcov : spriteCovers t x y n = spriteCovers s x y n := spriteCovers_of_draw_frame hft hx hy
  rw [hmode, hcov] at hcellu
  refine ⟨t, u, het, heu, ?_, ?_, ?_⟩
  · refine fb_eq_of_cells hs (displayFits_of_draw_frame hfu hlenu hts) ((hfu .mode (by simp)).trans hmode) ?_
    intro px py hpx hpy
    rw [hcellu px py hpx hpy, hcellt px py hpx hpy, Bool.xor_assoc, Bool.xor_self, Bool.xor_false]
  · rw [hvf, flagByte_eq_one_iff, spriteDrawn_collides, hmode, hcov]
    refine exists₂_congr fun px py => and_congr_right fun hpx => and_congr_right fun hpy => ?_
    rw [hcellt px py hpx hpy]
    cases s.cell px py <;> simp
  · rw [hvf, flagByte_eq_zero_iff, flagByte_eq_one_iff]
    exact (Bool.eq_false_or_eq_true _).symm

end Sys2Proof.Machine
end

section
/-! PROOFS. Timers and keys: the moves of one value, the skips on a key, and the key-wait, whose waiting step is the
identity, so that no run of Steps and Ticks ends it (spec/45_timers_keys.md R320 to R327). -/

namespace Sys2Proof.Machine

variable {s t : State} {i : Instr} {x : Nibble}

/-! ### The timers (R320 to R322) -/

/-- Settles O45: a write of a plain destination and one of each timer; `events` is in no frame. -/
theorem timerInstructionRule : Obligations.TimerInstructionRule := fun x s =>
  ⟨packXNN_familyF_toNat x 0x07#8, packXNN_familyF_toNat x 0x15#8, packXNN_familyF_toNat x 0x18#8, completes_setV rfl,
    ⟨_, rfl, changes_after_advance (onlyChanges_setDt s.advance _), rfl, rfl⟩,
    ⟨_, rfl, changes_after_advance (onlyChanges_setSt s.advance _), rfl, rfl⟩⟩

/-! ### Skips on a key (R323, R324) -/

/-- A skip whose test `f` is on the key that V[x] names. -/
theorem runInstr_keyHeld_next (f : Bool → Bool) (h : (s.getV x).toNat < 16) :
    runInstr i s (fun t => t.keyHeld (t.getV x) >>= fun held => pure (t.skipIf (f held))) =
      .next (s.advance.skipIf (f s.key[(s.getV x).toNat])) :=
  runInstr_ok (congrArg (· >>= fun held => pure (s.advance.skipIf (f held))) (State.keyHeld_ok (s := s.advance) h))

/-- The fault of a key number above 15, whatever the test (R377). -/
theorem runInstr_keyHeld_fault (f : Bool → Bool) (h : 15 < (s.getV x).toNat) :
    runInstr i s (fun t => t.keyHeld (t.getV x) >>= fun held => pure (t.skipIf (f held))) =
      .next (s.takeFault ⟨.keyIndex, some (s.getV x).toNat⟩ (some (encode i))) :=
  runInstr_error (congrArg (· >>= fun held => pure (s.advance.skipIf (f held)))
    (State.keyHeld_error (s := s.advance) (Nat.not_lt_of_le h)))

/-- The words of family E as the rules give them: the sub-code's word, and x above it. -/
theorem packXNN_familyE_toNat (x : Nibble) (nn : Byte) :
    (packXNN 0xE#4 x nn).toNat = 0xE000 + nn.toNat + x.toNat * 256 :=
  (packXNN_toNat 0xE#4 x nn).trans (Nat.add_right_comm ..)

/-- Settles O46: two skips, with opposite tests, by the two answers of `keyHeld`. -/
theorem keySkipRule : Obligations.KeySkipRule := fun x s =>
  ⟨packXNN_familyE_toNat x 0x9E#8, packXNN_familyE_toNat x 0xA1#8,
    fun h => ⟨completes_skip (runInstr_keyHeld_next id h) Iff.rfl,
      completes_skip (runInstr_keyHeld_next not h) (by simp)⟩,
    fun h => ⟨⟨_, runInstr_keyHeld_fault id h, faultEntry_takeFault s _ _⟩,
      _, runInstr_keyHeld_fault not h, faultEntry_takeFault s _ _⟩⟩

/-! ### The key a wait reports (R325, D11) -/

theorem State.releaseEdge_ofFin (s : State) (k : Fin 16) :
    s.releaseEdge (BitVec.ofFin k) = true ↔ s.key[k] = false ∧ s.prevKey[k] = true := by
  simp [State.releaseEdge]

/-- With no release edge, no key is reported, whichever `KEYWAIT_PICK` prefers. -/
theorem State.waitedKey_eq_none (h : ∀ k : Fin 16, ¬ (s.key[k] = false ∧ s.prevKey[k] = true)) :
    s.waitedKey = none := by
  have hnil : s.releaseEdges = [] := List.eq_nil_iff_forall_not_mem.2 fun k hk =>
    h k.toFin ((s.releaseEdge_ofFin k.toFin).1 ((s.mem_releaseEdges k).1 hk))
  unfold State.waitedKey
  cases s.cfg.keywaitPick <;> simp [hnil]

/-- The first key of the rising list of edges is the lowest key with one. -/
theorem State.waitedKey_lowest (hp : s.cfg.keywaitPick = .lowest)
    (h : ∃ k : Fin 16, s.key[k] = false ∧ s.prevKey[k] = true) :
    ∃ k : Fin 16, s.waitedKey = some (BitVec.ofFin k) ∧ (s.key[k] = false ∧ s.prevKey[k] = true) ∧
      ∀ j < k, ¬ (s.key[j] = false ∧ s.prevKey[j] = true) := by
  simp only [← State.releaseEdge_ofFin, ← State.mem_releaseEdges] at h ⊢
  have hrising := s.releaseEdges_rising
  simp only [State.waitedKey, hp]
  obtain ⟨e, he⟩ := h
  cases hl : s.releaseEdges with
  | nil => simp [hl] at he
  | cons k ks =>
    rw [hl, List.pairwise_cons] at hrising
    refine ⟨k.toFin, rfl, List.mem_cons_self, fun j hj hmem => ?_⟩
    rcases List.mem_cons.1 hmem with heq | hks
    · exact hj.ne (congrArg BitVec.toFin heq)
    · exact hj.not_gt (hrising.1 _ hks)

/-! ### The key-wait (R325, R326) -/

/-- A waiting FX0A undoes the fetch advance, so it leaves the state as it was (R326). -/
theorem exec_ldK_waiting (h : s.waitedKey = none) : exec (.ldK x) s = .next s := by
  have hw : s.advance.waitedKey = none := h
  rw [exec, execLdK]
  apply runInstr_ok
  simp only [hw, State.advance_pc, BitVec.add_sub_cancel]
  rfl

/-- A satisfied FX0A writes the key's number, and leaves the edge where `KEYWAIT_CONSUMES` has its default (D12). -/
theorem exec_ldK_satisfied {k : Nibble} (hc : s.cfg.keywaitConsumes = false) (h : s.waitedKey = some k) :
    exec (.ldK x) s = .next (s.advance.setV x (k.setWidth 8)) := by
  have hw : s.advance.waitedKey = some k := h
  rw [exec, execLdK]
  apply runInstr_ok
  simp [hw, State.consumeEdge, hc]

/-- Settles O47: a write of a plain destination, or the waiting step. -/
theorem keyWaitRule : Obligations.KeyWaitRule := by
  refine fun x s hp hc => ⟨packXNN_familyF_toNat x 0x0A#8, fun hedge => ?_, fun hnone => ?_⟩
  · obtain ⟨k, hwaited, ⟨hkey, hprev⟩, hlowest⟩ := State.waitedKey_lowest hp hedge
    refine ⟨k, hkey, hprev, hlowest, (completes_setV (exec_ldK_satisfied hc hwaited)).imp fun t ⟨hx, hpc⟩ => ⟨?_, hpc⟩⟩
    rw [hx, BitVec.toNat_setWidth_of_le (by decide)]
    rfl
  · exact exec_ldK_waiting (State.waitedKey_eq_none hnone)

/-! ### The wait does not time out (R326, R327) -/

/-- The machine runs and its next instruction is an FX0A with no release edge. -/
structure State.WaitsForKey (s : State) (x : Nibble) : Prop where
  running : s.status = .running
  inRange : s.fetchInRange
  word : s.wordAtPc = encode (.ldK x)
  noEdge : ∀ k : Fin 16, ¬ (s.key[k] = false ∧ s.prevKey[k] = true)

/-- The parts that Steps and Ticks may change during a key-wait. -/
abbrev waitFrame : List StatePart := [.delayTimer, .soundTimer, .events]

/-- FX0A belongs to both variants, so the word is decoded and run. -/
theorem State.WaitsForKey.step_eq (h : s.WaitsForKey x) : step s = .next s := by
  have hd : decode s.quirks.extendedOpcodes s.wordAtPc = .ok (.ldK x) :=
    h.word ▸ decode_encode_eq_ok_iff.2 fun hext => Bool.noConfusion hext
  rw [step_of_decode h.running h.inRange hd, exec_ldK_waiting (State.waitedKey_eq_none h.noEdge)]

/-- Nothing a key-wait depends on is in the frame of a wait. -/
theorem State.WaitsForKey.of_frame (h : s.WaitsForKey x) (hf : OnlyChanges s t waitFrame) : t.WaitsForKey x := by
  have hstatus : t.status = s.status := hf .status (by decide)
  have hpc : t.pc = s.pc := hf .pc (by decide)
  have hmem : t.byteAt = s.byteAt := funext fun a => hf (.memByte a) (by simp)
  have hkey (k : Fin 16) : t.key[k] = s.key[k] := hf (.key k) (by simp)
  have hprev (k : Fin 16) : t.prevKey[k] = s.prevKey[k] := hf (.prevKey k) (by simp)
  refine ⟨hstatus.trans h.running, ?_, ?_, fun k => ?_⟩
  · rw [State.fetchInRange, hpc]; exact h.inRange
  · rw [State.wordAtPc, hpc, hmem]; exact h.word
  · rw [hkey, hprev]; exact h.noEdge k

/-- One Step or Tick of a waiting machine: the step is the identity, the tick has its own frame (R390). -/
theorem State.WaitsForKey.hostStep_next {op : HostOp} (h : s.WaitsForKey x) (hop : op = .step ∨ op = .tick) :
    ∃ t, hostStep op s = .next t ∧ OnlyChanges s t waitFrame := by
  rcases hop with rfl | rfl
  · exact ⟨s, h.step_eq, OnlyChanges.rfl⟩
  · exact ⟨_, rfl, onlyChanges_tick s⟩

theorem hostRun_cons_of_next {op : HostOp} {ops : List HostOp} (h : hostStep op s = .next t) :
    hostRun (op :: ops) s = hostRun ops t := by
  simp only [hostRun, h]

theorem State.WaitsForKey.hostRun_next (ops : List HostOp) : ∀ s : State, s.WaitsForKey x →
    (∀ op ∈ ops, op = .step ∨ op = .tick) → ∃ t, hostRun ops s = .next t ∧ OnlyChanges s t waitFrame := by
  induction ops with
  | nil => exact fun s _ _ => ⟨s, rfl, OnlyChanges.rfl⟩
  | cons op ops ih =>
    intro s h hops
    obtain ⟨hop, hops⟩ := List.forall_mem_cons.1 hops
    obtain ⟨u, hu, hfu⟩ := h.hostStep_next hop
    obtain ⟨t, ht, hft⟩ := ih u (h.of_frame hfu) hops
    exact ⟨t, (hostRun_cons_of_next hu).trans ht, hfu.trans hft⟩

/-- Settles O48, by induction on the operations: the machine waits after each of them. -/
theorem keyWaitNeverTimesOut : Obligations.KeyWaitNeverTimesOut := fun _ ops s hops hs hf hw hnone =>
  State.WaitsForKey.hostRun_next ops s ⟨hs, hf, hw, hnone⟩ hops

end Sys2Proof.Machine
end

section
/-! PROOFS. The system instructions, which belong to `Extended` alone: EXIT, and the reserved no-ops with their one
diagnostic (spec/46_system.md R350 to R354). -/

namespace Sys2Proof.Machine

variable {s t : State} {i : Instr} {ps : List StatePart} {P : State → Prop}

/-- How an instruction of `Extended` alone ends, by variant: as its body says, or in FatalDecode. -/
theorem completes_extendedOnly (hi : i.extendedOnly = true)
    (h : s.quirks.extendedOpcodes = true → exec i s = .next t) (hf : OnlyChanges s.advance t ps) (hP : P t) :
    (s.cfg.variant = .extended → Completes i s (.pc :: ps) P) ∧
    (s.cfg.variant = .base → TakesFault i s .fatalDecode none) := by
  refine ⟨fun hv => ?_, fun hv => ?_⟩
  · have hq : s.quirks.extendedOpcodes = true := by simp [State.quirks, hv]
    exact ⟨t, h hq, changes_after_advance hf, hP⟩
  · have hq : s.quirks.extendedOpcodes = false := by simp [State.quirks, hv]
    exact ⟨_, exec_extendedOnly hi hq, faultEntry_takeFault s _ _⟩

/-! ### EXIT (R350) -/

/-- Settles O49: `Terminated` is written after the fetch advance, which left `pc` past the word. -/
theorem exitRule : Obligations.ExitRule := fun s =>
  ⟨rfl, completes_extendedOnly rfl runInstr_requireExtended_next (onlyChanges_setStatus s.advance .terminated)
    ⟨rfl, rfl⟩⟩

/-! ### The reserved no-ops (R351 to R354) -/

/-- A reserved no-op whose word is `w` reports that word: the raw opcode is the instruction's own encoding. -/
theorem completes_reservedNoOp {w : Nat} (hi : i.extendedOnly = true) (hw : (encode i).toNat = w)
    (h : s.quirks.extendedOpcodes = true → exec i s = .next (s.advance.emit (.diagnostic (encode i) s.pc))) :
    (encode i).toNat = w ∧
    (s.cfg.variant = .extended → Completes i s [.pc, .events] fun t =>
      t.events = s.events ++ [.diagnostic (BitVec.ofNat 16 w) s.pc] ∧ t.pc = s.pc + 2) ∧
    (s.cfg.variant = .base → TakesFault i s .fatalDecode none) := by
  have hop : BitVec.ofNat 16 w = encode i := by rw [← hw, BitVec.ofNat_toNat, BitVec.setWidth_eq]
  rw [hop]
  exact ⟨hw, completes_extendedOnly hi h (onlyChanges_emit _ _) ⟨rfl, rfl⟩⟩

theorem encode_scd_toNat (n : Nibble) : (encode (.scd n)).toNat = 0x00C0 + n.toNat := by
  rw [encode, packXYN_toNat]
  simp

/-- Settles O50: each of the three is the same no-op under its own word. -/
theorem reservedRule : Obligations.ReservedRule := by
  intro n s
  simp only [List.forall_mem_cons]
  exact ⟨completes_reservedNoOp rfl (encode_scd_toNat n) runInstr_requireExtended_next,
    completes_reservedNoOp rfl rfl runInstr_requireExtended_next,
    completes_reservedNoOp rfl rfl runInstr_requireExtended_next, List.forall_mem_nil _⟩

end Sys2Proof.Machine
end

section
/-! PROOFS. The host operations beside Step and Load: Tick, SetKey and ReadDisplay (spec/60_exceptions.md R390 to R402). -/

namespace Sys2Proof.Machine

variable {s : State}

/-! ### The timers of a tick (R391) -/

theorem toNat_sub_one_of_ne_zero {b : Byte} (h : b ≠ 0#8) : (b - 1).toNat = b.toNat - 1 := by
  bv_omega

theorem tickDelay_dt_toNat (s : State) : s.tickDelay.dt.toNat = s.dt.toNat - 1 := by
  unfold State.tickDelay
  split
  next h => simp [h]
  next h => exact toNat_sub_one_of_ne_zero h

theorem tickSound_st_toNat (s : State) : s.tickSound.st.toNat = s.st.toNat - 1 := by
  unfold State.tickSound
  split
  next h => simp [h]
  next h => exact toNat_sub_one_of_ne_zero h

theorem tick_dt_toNat (s : State) : s.tickDelay.tickSound.tickStop.dt.toNat = s.dt.toNat - 1 := by
  have hstop : s.tickDelay.tickSound.tickStop.dt = s.tickDelay.tickSound.dt :=
    onlyChanges_tickStop _ .delayTimer (by decide)
  have hsound : s.tickDelay.tickSound.dt = s.tickDelay.dt := onlyChanges_tickSound _ .delayTimer (by decide)
  rw [hstop, hsound, tickDelay_dt_toNat]

/-- ST as a tick leaves it before the choice of StopBeep, which reads it. -/
theorem tickDelay_tickSound_st_toNat (s : State) : s.tickDelay.tickSound.st.toNat = s.st.toNat - 1 := by
  have hdelay : s.tickDelay.st = s.st := onlyChanges_tickDelay s .soundTimer (by decide)
  rw [tickSound_st_toNat, hdelay]

theorem tick_st_toNat (s : State) : s.tickDelay.tickSound.tickStop.st.toNat = s.st.toNat - 1 := by
  have hstop : s.tickDelay.tickSound.tickStop.st = s.tickDelay.tickSound.st :=
    onlyChanges_tickStop _ .soundTimer (by decide)
  rw [hstop, tickDelay_tickSound_st_toNat]

/-! ### The events of a tick (R392) -/

theorem tickSound_events (s : State) :
    s.tickSound.events = s.events ++ (if 0 < s.st.toNat then [Event.startBeep] else []) := by
  unfold State.tickSound
  split
  next h => simp [h]
  next h =>
    have hpos : 0 < s.st.toNat := by bv_omega
    rw [if_pos hpos]
    rfl

theorem tickStop_events (s : State) :
    s.tickStop.events = s.events ++ (if s.st.toNat = 0 then [Event.stopBeep] else []) := by
  unfold State.tickStop
  split
  next h => simp [h]
  next h =>
    have hne : s.st.toNat ≠ 0 := by bv_omega
    rw [if_neg hne, List.append_nil]

theorem tick_events (s : State) :
    s.tickDelay.tickSound.tickStop.events =
      s.events ++ ((if 0 < s.st.toNat then [Event.startBeep] else []) ++
        (if s.st.toNat ≤ 1 then [Event.stopBeep] else [])) := by
  have hst : s.tickDelay.st = s.st := onlyChanges_tickDelay s .soundTimer (by decide)
  have hev : s.tickDelay.events = s.events := onlyChanges_tickDelay s .events (by decide)
  rw [tickStop_events, tickSound_events, tickDelay_tickSound_st_toNat, hst, hev, List.append_assoc]
  simp only [Nat.sub_eq_zero_iff_le]

/-- Settles O19: the frame of a tick, then what each of its three parts leaves in the timers and the events. -/
theorem tickRule : Obligations.TickRule := fun s =>
  ⟨_, rfl, onlyChanges_tick s, tick_dt_toNat s, tick_st_toNat s, tick_events s⟩

/-! ### SetKey (R400, R401) -/

theorem hostSetKey_of_lt {k : Nat} (h : k < 16) (pressed : Bool) (s : State) :
    hostSetKey k pressed s = .next (s.pressKey ⟨k, h⟩ pressed) := dif_pos h

theorem hostSetKey_of_not_lt {k : Nat} (h : ¬ k < 16) (pressed : Bool) (s : State) :
    hostSetKey k pressed s = .refused (.setKeyOutOfRange k) := dif_neg h

theorem edgeHistory_perKey (hc : s.cfg.edgeHistory = .perKey) (k : Fin 16) :
    s.edgeHistory k = s.prevKey.set k.val s.key[k] k.isLt := by
  simp [State.edgeHistory, hc]

/-- The frame of a SetKey under D10's default: the two entries of its key. -/
theorem onlyChanges_pressKey (hc : s.cfg.edgeHistory = .perKey) (k : Fin 16) (pressed : Bool) :
    OnlyChanges s (s.pressKey k pressed) [.key k, .prevKey k] := by
  intro p hp
  cases p with
  | key j =>
    have hne : k.val ≠ j.val := fun e => hp (by simp [Fin.ext e.symm])
    simp [StatePart.same, hne]
  | prevKey j =>
    have hne : k.val ≠ j.val := fun e => hp (by simp [Fin.ext e.symm])
    simp [StatePart.same, edgeHistory_perKey hc, hne]
  | _ => rfl

theorem pressKey_key_same (s : State) (k : Fin 16) (pressed : Bool) : (s.pressKey k pressed).key[k] = pressed := by
  simp

theorem pressKey_prevKey_same (hc : s.cfg.edgeHistory = .perKey) (k : Fin 16) (pressed : Bool) :
    (s.pressKey k pressed).prevKey[k] = s.key[k] := by
  simp [edgeHistory_perKey hc]

/-- Settles O20: a key up to 15 is pressed, a key above is refused. -/
theorem setKeyRule : Obligations.SetKeyRule := fun s k pressed hc =>
  ⟨fun h => ⟨_, hostSetKey_of_lt h pressed s, onlyChanges_pressKey hc ⟨k, h⟩ pressed,
      pressKey_key_same s ⟨k, h⟩ pressed, pressKey_prevKey_same hc ⟨k, h⟩ pressed⟩,
    fun h => hostSetKey_of_not_lt (Nat.not_lt.2 h) pressed s⟩

/-! ### ReadDisplay (R402) -/

theorem readDisplay_size_low (h : s.mode = .low) : (readDisplay s).width = 64 ∧ (readDisplay s).height = 32 := by
  simp only [readDisplay, h, Mode.width, Mode.height, and_self]

theorem readDisplay_size_high (h : s.mode = .high) : (readDisplay s).width = 128 ∧ (readDisplay s).height = 64 := by
  simp only [readDisplay, h, Mode.width, Mode.height, and_self]

/-- Settles O22: the size of the snapshot is that of the mode. -/
theorem readDisplayRule : Obligations.ReadDisplayRule := fun _ =>
  ⟨rfl, rfl, rfl, readDisplay_size_low, readDisplay_size_high⟩

end Sys2Proof.Machine
end

section
/-! PROOFS. Reset, which leaves the constructed state of the same configuration (spec/70_reset_and_hazards.md R420 to
R422), and the parameters of A.3 away from their defaults (notes/assumptions/7.md). -/

namespace Sys2Proof.Machine

variable {s : State} {c : Config} {i : Instr} {m : Mode} {x k : Nibble}

/-! ### What memory holds after reset (R87, R90, R421, D15) -/

@[simp] theorem State.byteAt_hostReset (s : State) (a : Nat) : s.hostReset.byteAt a = resetByte s.cfg a := rfl

@[simp] theorem State.getV_hostReset (s : State) (x : Nibble) : s.hostReset.getV x = 0#8 :=
  State.getV_construct s.cfg x

/-- `HIFONT_IN_BASE` at its default leaves the copy of `FONT_HI` to the variant. -/
theorem hasFontHi_eq_true_iff (h : c.hifontInBase = false) : hasFontHi c = true ↔ c.variant = .extended := by
  simp [hasFontHi, h]

theorem hasFontHi_of_hifontInBase (h : c.hifontInBase = true) : hasFontHi c = true := by
  simp [hasFontHi, h]

/-- The reset contents with `FONT_LO_BASE` as the number it is. -/
theorem resetByte_eq (c : Config) (a : Nat) : resetByte c a =
    if hasFontHi c = true ∧ c.fontHiBase ≤ a ∧ a < c.fontHiBase + 100 then
      c.fontHi.toList.getD (a - c.fontHiBase) 0#8
    else if a < 80 then c.fontLo.toList.getD a 0#8 else 0#8 := by
  simp [resetByte, and_assoc]

/-- Settles O14: each piece is read off the state Reset leaves; an address reads as reset leaves it. -/
theorem resetRestores : Obligations.ResetRestores := fun s => by
  refine ⟨s.hostReset, rfl, State.getV_hostReset s, rfl, rfl, rfl, ?stack, rfl, rfl, rfl, rfl, ?keys, rfl, rfl, rfl,
    rfl, fun hb a _ => ?memory⟩
  case stack => simp
  case keys => simp
  case memory => simp only [State.byteAt_hostReset, resetByte_eq, hasFontHi_eq_true_iff hb]

/-- Settles O15: construction and Reset leave the same state where no draw and no event came before. -/
theorem constructedIsReset : Obligations.ConstructedIsReset := ⟨fun _ => rfl, rfl⟩

/-! ### EDGE_HISTORY (D10) -/

theorem pressKey_prevKey_wholeArray (hc : s.cfg.edgeHistory = .wholeArray) (k : Fin 16) (pressed : Bool) :
    (s.pressKey k pressed).prevKey = s.key := by
  simp [State.edgeHistory, hc]

/-- The frame of a SetKey under any edge history: its key, and the whole of `prev_key`. -/
theorem onlyChanges_pressKey_any (s : State) (k : Fin 16) (pressed : Bool) :
    OnlyChanges s (s.pressKey k pressed) (.key k :: (List.finRange 16).map StatePart.prevKey) := by
  intro p hp
  cases p with
  | key j =>
    have hne : k.val ≠ j.val := fun e => hp (by simp [Fin.ext e.symm])
    simp [StatePart.same, hne]
  | prevKey j => simp at hp
  | _ => rfl

/-! ### KEYWAIT_PICK and KEYWAIT_CONSUMES (D11, D12) -/

/-- The last key of the rising list of edges is the highest key with one. -/
theorem State.waitedKey_highest (hp : s.cfg.keywaitPick = .highest)
    (h : ∃ k : Fin 16, s.key[k] = false ∧ s.prevKey[k] = true) :
    ∃ k : Fin 16, s.waitedKey = some (BitVec.ofFin k) ∧ (s.key[k] = false ∧ s.prevKey[k] = true) ∧
      ∀ j, k < j → ¬ (s.key[j] = false ∧ s.prevKey[j] = true) := by
  simp only [← State.releaseEdge_ofFin, ← State.mem_releaseEdges] at h ⊢
  have hrising := s.releaseEdges_rising
  simp only [State.waitedKey, hp]
  obtain ⟨e, he⟩ := h
  rcases List.eq_nil_or_concat' s.releaseEdges with hl | ⟨ks, k, hl⟩
  · simp [hl] at he
  · rw [hl, List.pairwise_append] at hrising
    obtain ⟨-, -, hbelow⟩ := hrising
    rw [hl]
    refine ⟨k.toFin, List.getLast?_concat, List.mem_append_right _ List.mem_cons_self, fun j hj hmem => ?_⟩
    rcases List.mem_append.1 hmem with hks | hlast
    · exact hj.not_gt (hbelow _ hks k List.mem_cons_self)
    · exact hj.ne' (congrArg BitVec.toFin (List.mem_singleton.1 hlast))

/-- A satisfied FX0A writes the key's number and then uses up the edge where `KEYWAIT_CONSUMES` says so. -/
theorem exec_ldK_some (h : s.waitedKey = some k) :
    exec (.ldK x) s = .next ((s.advance.setV x (k.setWidth 8)).consumeEdge k) := by
  have hw : s.advance.waitedKey = some k := h
  rw [exec, execLdK]
  apply runInstr_ok
  simp only [hw]

theorem onlyChanges_consumeEdge_ofFin (s : State) (k : Fin 16) :
    OnlyChanges s (s.consumeEdge (BitVec.ofFin k)) [.prevKey k] :=
  (onlyChanges_consumeEdge s (BitVec.ofFin k)).mono fun p hp => by
    split at hp
    · exact hp
    · exact absurd hp List.not_mem_nil

theorem State.consumeEdge_prevKey (hc : s.cfg.keywaitConsumes = true) (k : Fin 16) :
    (s.consumeEdge (BitVec.ofFin k)).prevKey[k] = s.key[k] := by
  simp [State.consumeEdge, hc]

@[simp] theorem State.getV_consumeEdge (s : State) (k x : Nibble) : (s.consumeEdge k).getV x = s.getV x := by
  unfold State.consumeEdge; split <;> rfl

/-- How a satisfied FX0A ends, at every setting of the two parameters. -/
theorem completes_ldK {k : Fin 16} (h : s.waitedKey = some (BitVec.ofFin k)) (hkey : s.key[k] = false) :
    Completes (.ldK x) s [.pc, .reg x, .prevKey k] fun t =>
      (t.getV x).toNat = k.val ∧ (s.cfg.keywaitConsumes = true → t.prevKey[k] = false) ∧ t.pc = s.pc + 2 := by
  refine ⟨_, exec_ldK_some h, changes_after_advance
    ((onlyChanges_setV s.advance x _).append (onlyChanges_consumeEdge_ofFin _ k)), ?_, fun hc => ?_, ?_⟩
  · rw [State.getV_consumeEdge, State.getV_setV_same, BitVec.toNat_setWidth_of_le (by decide)]
    rfl
  · rw [State.consumeEdge_prevKey (s := s.advance.setV x _) hc]
    exact hkey
  · rw [State.consumeEdge_pc]
    rfl

/-- The key FX0A reports has an edge, and is the highest with one where `KEYWAIT_PICK` says so. -/
theorem State.waitedKey_of_edge (h : ∃ k : Fin 16, s.key[k] = false ∧ s.prevKey[k] = true) :
    ∃ k : Fin 16, s.waitedKey = some (BitVec.ofFin k) ∧ (s.key[k] = false ∧ s.prevKey[k] = true) ∧
      (s.cfg.keywaitPick = .highest → ∀ j, k < j → ¬ (s.key[j] = false ∧ s.prevKey[j] = true)) := by
  cases hp : s.cfg.keywaitPick with
  | lowest =>
    obtain ⟨k, hwaited, hedge, -⟩ := State.waitedKey_lowest hp h
    exact ⟨k, hwaited, hedge, nofun⟩
  | highest =>
    obtain ⟨k, hwaited, hedge, hhighest⟩ := State.waitedKey_highest hp h
    exact ⟨k, hwaited, hedge, fun _ => hhighest⟩

/-! ### CLEAR_ON_SAME_MODE (D24) -/

theorem State.selectMode_same (hm : s.mode = m) (hc : s.cfg.clearOnSameMode = false) : s.selectMode m = s := by
  simp [State.selectMode, hm, hc]

/-- An instruction that selects the mode the machine is in, where that does not clear: the fetch advance alone. -/
theorem completes_selectMode_same (hv : s.cfg.variant = .extended) (hc : s.cfg.clearOnSameMode = false)
    (h : s.quirks.extendedOpcodes = true → exec i s = .next (s.advance.selectMode m)) (hm : s.mode = m) :
    Completes i s [.pc] fun t => t.pc = s.pc + 2 := by
  have hq : s.quirks.extendedOpcodes = true := by simp [State.quirks, hv]
  rw [State.selectMode_same (s := s.advance) hm hc] at h
  exact ⟨_, h hq, onlyChanges_advance s, rfl⟩

/-! ### FONT_DIGIT_MASK (D14) -/

/-- Whatever the mask leaves of a byte, the address is far below 65536. -/
theorem State.glyphLo_toNat_masked (s : State) (x : Nibble) :
    (s.glyphLo x).toNat = 5 * (s.getV x &&& s.cfg.fontDigitMask).toNat := by
  rw [State.glyphLo, State.fontDigit, BitVec.toNat_ofNat, Nat.zero_add]
  omega

theorem State.glyphHi_toNat_masked (s : State) (x : Nibble) :
    (s.glyphHi x).toNat = (s.cfg.fontHiBase + 10 * (s.getV x &&& s.cfg.fontDigitMask).toNat) % 65536 := by
  rw [State.glyphHi, State.fontDigit, BitVec.toNat_ofNat]

/-- FX29 in either variant, at any mask. -/
theorem completes_ldF (s : State) (x : Nibble) : Completes (.ldF x) s [.pc, .index] fun t =>
    t.i.toNat = 5 * (s.getV x &&& s.cfg.fontDigitMask).toNat :=
  (completes_setI rfl (State.glyphLo_toNat_masked s x)).imp fun _ ⟨hi, _⟩ => hi

/-- FX30 in `Extended`, at any mask and any base; the address is reduced mod 65536 (notes/assumptions/12.md). -/
theorem completes_ldHf (hv : s.cfg.variant = .extended) (x : Nibble) : Completes (.ldHf x) s [.pc, .index] fun t =>
    t.i.toNat = (s.cfg.fontHiBase + 10 * (s.getV x &&& s.cfg.fontDigitMask).toNat) % 65536 :=
  have hq : s.quirks.extendedOpcodes = true := by simp [State.quirks, hv]
  (completes_setI (exec_ldHf_next hq) (State.glyphHi_toNat_masked s x)).imp fun _ ⟨hi, _⟩ => hi

/-! ### HIFONT_IN_BASE (D15) -/

theorem resetByte_of_fontHi {a : Nat} (hf : hasFontHi c = true) (hlo : c.fontHiBase ≤ a)
    (hhi : a < c.fontHiBase + 100) : resetByte c a = c.fontHi.toList.getD (a - c.fontHiBase) 0#8 := by
  rw [resetByte_eq, if_pos ⟨hf, hlo, hhi⟩]

/-- Settles O51, parameter by parameter. -/
theorem nonDefaultParameterRule : Obligations.NonDefaultParameterRule := by
  refine ⟨fun s k pressed hc h => ?edgeHistory, fun x s hedge => ?keywait, fun s hv hc => ?clearOnSameMode,
    fun x s => ?fontDigitMask, fun s a hb hlo hhi => ?hifontInBase⟩
  case edgeHistory =>
    exact ⟨_, hostSetKey_of_lt h pressed s, onlyChanges_pressKey_any s ⟨k, h⟩ pressed,
      pressKey_key_same s ⟨k, h⟩ pressed, pressKey_prevKey_wholeArray hc ⟨k, h⟩ pressed⟩
  case keywait =>
    obtain ⟨k, hwaited, ⟨hkey, hprev⟩, hhighest⟩ := State.waitedKey_of_edge hedge
    exact ⟨k, hkey, hprev, hhighest, completes_ldK hwaited hkey⟩
  case clearOnSameMode =>
    exact ⟨completes_selectMode_same hv hc runInstr_requireExtended_next,
      completes_selectMode_same hv hc runInstr_requireExtended_next⟩
  case fontDigitMask => exact ⟨completes_ldF s x, fun hv => completes_ldHf hv x⟩
  case hifontInBase =>
    exact ⟨s.hostReset, rfl, resetByte_of_fontHi (hasFontHi_of_hifontInBase hb) hlo hhi⟩

end Sys2Proof.Machine
end
